-- ==== Sys2Proof/Word.lean ====
section
/-! DEFINITION. The word types of the command port and the framebuffer.

Fixed widths stand only where the spec gives a field a width (R3); all other quantities are naturals. -/
namespace Sys2Proof

/-- A command word or a response word: 32 bits, never split into bytes (R23, R35, R39). -/
abbrev Word := BitVec 32

/-- A framebuffer byte (R18, R33). -/
abbrev Byte := BitVec 8

/-- A pixel: `true` is on (1) and `false` is off (0) (R34). -/
abbrev Pixel := Bool

end Sys2Proof
end

