-- ==== Sys2Proof/Config.lean ====
section
/-! DEFINITION. The block's fixed sizes (R2) and its one open parameter, PALETTE (D11). -/
namespace Sys2Proof

/-- FB_SIZE: the framebuffer's length in bytes (R2). -/
abbrev Config.fbSize : Nat := 8192

/-- LINES: the scan lines and raster rows, y in [0, 191] (R2). -/
abbrev Config.lines : Nat := 192

/-- XLOG: the logical columns, x in [0, 279] (R2). -/
abbrev Config.logicalColumns : Nat := 280

/-- BYTES_PER_LINE: the byte columns of a scan line (R2). -/
abbrev Config.bytesPerLine : Nat := 40

/-- RASTER_W: the raster columns, col in [0, 559] (R2). -/
abbrev Config.rasterWidth : Nat := 560

/-- PALETTE: the display colour of a pixel value, as a number of the external encoder.
Left open by the spec (R2, D11): it has no body and no definition reads it (log 9, safe). -/
opaque Config.palette : Pixel → Nat

end Sys2Proof
end

