-- ==== Sys2Proof/Syntax.lean ====
section
/-! DEFINITION. The six commands of the opcode table (R36, opcode_table.json), one constructor each. -/
namespace Sys2Proof

/-- A command with its operand fields, each zero-extended to a natural (R3, R37); the byte of EXPAND stays a
bit vector, since the spec reads its bits. DFRAME's operand is not in the word: it is the data port's INBUF (R37). -/
inductive Instr where
  /-- `FWD x, y`: forward map (R44). -/
  | fwd (x y : Nat)
  /-- `INV a`: inverse map (R48). -/
  | inv (a : Nat)
  /-- `EXPAND v`: expand one byte (R54). -/
  | expand (v : Byte)
  /-- `DFRAME`: decode the frame on the data port (R65). -/
  | dframe
  /-- `RDPIX col, row`: read one raster pixel (R62). -/
  | rdpix (col row : Nat)
  /-- `RDSTAT`: read STATUS (R71). -/
  | rdstat
  deriving DecidableEq, Repr

end Sys2Proof
end

