-- ==== Sys2Proof/WellFormed.lean ====
section
/-! DEFINITION. When a command's operands fit their fields (R37).

A value that fits its field but lies outside the command's domain is well formed: the block answers DOMAIN (R41). -/
namespace Sys2Proof

/-- Every operand fits the width that R37 gives its field. -/
def Instr.wf : Instr → Bool
  | .fwd x y => decide (x < 512) && decide (y < 256)
  | .inv a => decide (a < 65536)
  | .expand _ => true
  | .dframe => true
  | .rdpix col row => decide (col < 1024) && decide (row < 256)
  | .rdstat => true

end Sys2Proof
end

