-- ==== Sys2Proof/Decode.lean ====
section
/-! DEFINITION. Command words: the decoder, the encoder and the opcode table (R35 to R38). -/
namespace Sys2Proof

/-- `v[hi:lo]` of a natural (R5). -/
def bits (v hi lo : Nat) : Nat := v / 2 ^ lo % 2 ^ (hi - lo + 1)

/-- `w[hi:lo]` of a word, as a natural (R5). -/
def slice (w : Word) (hi lo : Nat) : Nat := bits w.toNat hi lo

/-- Why a command word is illegal (R38). -/
inductive Illegal where
  /-- OP selects no command: 0x0 or 0x7 to 0xF (R36). -/
  | opcode (op : Nat)
  /-- OP selects a command and a bit that R37 reserves for it is 1. -/
  | reservedBit (op : Nat)
  deriving DecidableEq, Repr

/-- What the decoder answers: a command, or the reason the word is none. -/
inductive Decoded where
  | instr (i : Instr)
  | illegal (why : Illegal)
  deriving DecidableEq, Repr

/-- The command a word stands for, or why it is illegal (R36, R37, R38). -/
def decode (w : Word) : Decoded :=
  match slice w 31 28 with
  | 1 =>
    if slice w 27 24 = 0 ∧ slice w 15 9 = 0 then .instr (.fwd (slice w 8 0) (slice w 23 16))
    else .illegal (.reservedBit 1)
  | 2 =>
    if slice w 27 16 = 0 then .instr (.inv (slice w 15 0))
    else .illegal (.reservedBit 2)
  | 3 =>
    if slice w 27 8 = 0 then .instr (.expand (BitVec.ofNat 8 (slice w 7 0)))
    else .illegal (.reservedBit 3)
  | 4 =>
    if slice w 27 0 = 0 then .instr .dframe
    else .illegal (.reservedBit 4)
  | 5 =>
    if slice w 27 24 = 0 ∧ slice w 15 10 = 0 then .instr (.rdpix (slice w 9 0) (slice w 23 16))
    else .illegal (.reservedBit 5)
  | 6 =>
    if slice w 27 0 = 0 then .instr .rdstat
    else .illegal (.reservedBit 6)
  | op => .illegal (.opcode op)

/-- The word of a well-formed command: each field at the weight of its lowest bit (R37). -/
def encode : Instr → Word
  | .fwd x y => BitVec.ofNat 32 (0x1 * 2 ^ 28 + y * 2 ^ 16 + x)
  | .inv a => BitVec.ofNat 32 (0x2 * 2 ^ 28 + a)
  | .expand v => BitVec.ofNat 32 (0x3 * 2 ^ 28 + v.toNat)
  | .dframe => BitVec.ofNat 32 (0x4 * 2 ^ 28)
  | .rdpix col row => BitVec.ofNat 32 (0x5 * 2 ^ 28 + row * 2 ^ 16 + col)
  | .rdstat => BitVec.ofNat 32 (0x6 * 2 ^ 28)

/-- One row of the opcode table: the word `w` is this row's when `w AND mask = pattern`. -/
structure OpcodeRow where
  mnemonic : String
  mask : Word
  pattern : Word
  deriving DecidableEq, Repr

/-- Whether a word is a row's (R38). -/
def OpcodeRow.holds (r : OpcodeRow) (w : Word) : Bool :=
  w &&& r.mask == r.pattern

/-- The `FWD` row of spec/opcode_table.json. -/
def OpcodeRow.fwd : OpcodeRow := ⟨"FWD", 0xFF00FE00#32, 0x10000000#32⟩

/-- The `INV` row of spec/opcode_table.json. -/
def OpcodeRow.inv : OpcodeRow := ⟨"INV", 0xFFFF0000#32, 0x20000000#32⟩

/-- The `EXPAND` row of spec/opcode_table.json. -/
def OpcodeRow.expand : OpcodeRow := ⟨"EXPAND", 0xFFFFFF00#32, 0x30000000#32⟩

/-- The `DFRAME` row of spec/opcode_table.json. -/
def OpcodeRow.dframe : OpcodeRow := ⟨"DFRAME", 0xFFFFFFFF#32, 0x40000000#32⟩

/-- The `RDPIX` row of spec/opcode_table.json. -/
def OpcodeRow.rdpix : OpcodeRow := ⟨"RDPIX", 0xFF00FC00#32, 0x50000000#32⟩

/-- The `RDSTAT` row of spec/opcode_table.json. -/
def OpcodeRow.rdstat : OpcodeRow := ⟨"RDSTAT", 0xFFFFFFFF#32, 0x60000000#32⟩

/-- spec/opcode_table.json, in its order. -/
def opcodeTable : List OpcodeRow :=
  [.fwd, .inv, .expand, .dframe, .rdpix, .rdstat]

/-- The opcode-table row of a command. -/
def Instr.row : Instr → OpcodeRow
  | .fwd _ _ => .fwd
  | .inv _ => .inv
  | .expand _ => .expand
  | .dframe => .dframe
  | .rdpix _ _ => .rdpix
  | .rdstat => .rdstat

/-- The word whose low `nbits` bits are those of `w`, the rest 0; a command is one 32-bit word (R35), so
more than 32 bits are none. -/
def tableWord (nbits w : Nat) : Option Word :=
  if nbits ≤ 32 then some (BitVec.ofNat 32 (w % 2 ^ nbits)) else none

/-- The command the decoder reads from a table row's bits (bit 0 the least significant bit of the word);
`none` where it refuses. -/
def decodeTableWord (nbits w : Nat) : Option Instr :=
  match tableWord nbits w with
  | none => none
  | some word =>
    match decode word with
    | .instr i => some i
    | .illegal _ => none

end Sys2Proof
end

