-- ==== Sys2Proof/Machine/State.lean ====
section
/-! DEFINITION. The machine's state, its reset value and the reasons a step can stop.

The block's own state is FB, RASTER, STATUS.STATE and CURSOR (10_state.md, in full); the last three fields are the
command port and the host beyond it (R35, R37, R39, R82). -/
namespace Sys2Proof.Machine

/-- Framebuffer contents: (address, byte) pairs in canonical form, an unlisted address below 8192 holding 0x00.
Every one of the 8192 bytes of a frame has a value, so the form loses none (R6, R18, log 5). -/
abbrev Memory := List Host.Cell

/-- One raster row: 560 one-bit cells, bit `col` the pixel of column `col` (R8, R34, log 6). -/
abbrev RasterLine := BitVec Config.rasterWidth

/-- RASTER: (row, line) pairs in canonical form, an unlisted row below 192 being all off (R8, R10, log 6). -/
abbrev Raster := List (Nat × RasterLine)

/-- The canonical form of a sparse list: keys strictly rising from `lo` and below `hi`, no entry equal to the
all-zero value an unlisted key reads as. -/
def Sparse.wf {w : Nat} (hi : Nat) : Nat → List (Nat × BitVec w) → Bool
  | _, [] => true
  | lo, (k, v) :: m => decide (lo ≤ k) && decide (k < hi) && !(v == 0#w) && Sparse.wf hi (k + 1) m

/-- The framebuffer's list is in canonical form and lists addresses 0x0000 to 0x1FFF only (R18). -/
def Memory.wf (m : Memory) : Bool := Sparse.wf Config.fbSize 0 m

/-- The raster's list is in canonical form and lists rows 0 to 191 only (R8). -/
def Raster.wf (r : Raster) : Bool := Sparse.wf Config.lines 0 r

/-- STATUS.STATE (R11): all four values of its two bits. -/
inductive RunState where
  /-- 0: no raster has been produced since reset. -/
  | idle
  /-- 1: the last DFRAME completed and RASTER holds its result. -/
  | done
  /-- 2: the last DFRAME was rejected with SIZE. -/
  | sizeError
  /-- 3: a pass is in progress; no host command sees it (R12). -/
  | running
  deriving DecidableEq, Repr

/-- What the block answers to a command: RESP and the 4-bit ERR (R39). -/
structure Response where
  resp : Word
  err : BitVec 4
  deriving DecidableEq, Repr

/-- What the host does at the port: it issues a command with the byte sequence it presents on the data port
(R35, R37), or asserts reset (R82). -/
inductive HostEvent where
  /-- A command word, and INBUF for the case that the word is DFRAME. -/
  | command (word : Word) (inbuf : List Byte)
  /-- Reset, between two commands or in the middle of a pass that a state holds. -/
  | reset
  /-- A command that a reset overtakes before its response; if a pass has begun, after `steps` of its pass
  steps (R82, log 3). -/
  | resetDuring (word : Word) (inbuf : List Byte) (steps : Nat)
  deriving DecidableEq, Repr

/-- The whole state. -/
structure State where
  /-- FB: `none` until the first DFRAME latch (R6, R7). -/
  fb : Option Memory
  /-- RASTER (R8). -/
  raster : Raster
  /-- STATUS.STATE (R11). STATUS[31:2] is reserved and holds nothing. -/
  status : RunState
  /-- CURSOR, the address of the next byte of the pass (R13). -/
  cursor : BitVec 14
  /-- What the host does next, first event first (R35, log 1). -/
  pending : List HostEvent
  /-- INBUF as last presented on the data port (R37, log 2). -/
  inbuf : List Byte
  /-- The response the last step issued, if it issued one (R39, log 2). -/
  response : Option Response
  deriving DecidableEq, Repr

/-- The state after reset (R81), with nothing at the port (log 2). -/
def State.reset : State where
  fb := none
  raster := []
  status := .idle
  cursor := 0
  pending := []
  inbuf := []
  response := none

/-- Why the machine stops. Errors of a command are no faults: they are its response (R72, R77). -/
inductive Fault where
  /-- Raised by `step` alone, in a state that says RUNNING but has no frame in FB or a CURSOR above 8192. The
  spec gives no step there (R7, R63) and no run from reset reaches it. Safe (log 4). -/
  | passCannotRun
  deriving DecidableEq, Repr

/-- Why an instruction has no meaning. -/
inductive Refusal where
  /-- Raised by an arm of `exec` whose instruction has no meaning yet. No arm raises it in this model. Safe. -/
  | notModelled (mnemonic : String)
  deriving DecidableEq, Repr

/-- The outcome of a step of this machine. -/
abbrev Outcome := Host.Outcome State Fault Refusal

end Sys2Proof.Machine
end

