-- ==== Sys2Proof/Machine/Operands.lean ====
section
/-! DEFINITION. Operand forms: the domains of coordinates, pixels and addresses, and the bits of a byte.

Operands come from the command word as naturals (R3, R37); there are no other operand forms (R14). -/
namespace Sys2Proof.Machine

/-- (x, y) is a coordinate: x in [0, 279], y in [0, 191] (R42). -/
def inCoordinateDomain (x y : Nat) : Bool :=
  decide (x < Config.logicalColumns) && decide (y < Config.lines)

/-- (row, col) is a raster cell: row in [0, 191], col in [0, 559] (R21). -/
def inRaster (row col : Nat) : Bool :=
  decide (row < Config.lines) && decide (col < Config.rasterWidth)

/-- `a` is a hole: inside FB, with a[6:0] in 0x78 to 0x7F (R31, R47). -/
def isHole (a : Nat) : Bool :=
  decide (a ≤ 0x1FFF) && decide (0x78 ≤ a % 0x80)

/-- `a` is valid: inside FB, with a[6:0] at most 0x77 (R47). -/
def isValidAddress (a : Nat) : Bool :=
  decide (a ≤ 0x1FFF) && decide (a % 0x80 ≤ 0x77)

/-- SHIFT, bit 7 of a framebuffer byte (R33). -/
def shiftBit (v : Byte) : Bool := v.getLsbD 7

/-- SHIFT as the number added to a column (R52). -/
def shiftOf (v : Byte) : Nat := if shiftBit v then 1 else 0

/-- The sample P_b of a byte, b in 0 to 6: on when bit b is set (R33, R34). -/
def sample (v : Byte) (b : Nat) : Pixel := v.getLsbD b

end Sys2Proof.Machine
end

