-- ==== Sys2Proof/Machine/Flags.lean ====
section
/-! DEFINITION. Error codes and the fields of a response word.

The block stores no flags (R16): VALID and SHIFT are fields of a response, computed here (R40). -/
namespace Sys2Proof.Machine

/-- The errors a command can end with (R72). Codes 5 to 15 have no name, since nothing produces them. -/
inductive Err where
  | ok
  | illegalCommand
  | domain
  | size
  | notReady
  deriving DecidableEq, Repr

/-- ERR as the host sees it (R72). -/
def Err.code : Err → BitVec 4
  | .ok => 0
  | .illegalCommand => 1
  | .domain => 2
  | .size => 3
  | .notReady => 4

/-- The value of STATUS[1:0] (R11). -/
def RunState.code : RunState → Nat
  | .idle => 0
  | .done => 1
  | .sizeError => 2
  | .running => 3

/-- STATUS as RDSTAT reads it: STATE in [1:0], zeros above (R11, R71). -/
def statusWord (st : RunState) : Word := BitVec.ofNat 32 st.code

/-- FWD's RESP: the address in [12:0] (R40). -/
def addressResp (a : Nat) : Word := BitVec.ofNat 32 a

/-- INV's RESP: VALID in [31], y in [23:16], x in [8:0]; all zero for an invalid address (R40, R48). -/
def coordinateResp : Option (Nat × Nat) → Word
  | none => 0
  | some (x, y) => (1#32 <<< 31) ||| (BitVec.ofNat 32 y <<< 16) ||| BitVec.ofNat 32 x

/-- EXPAND's RESP: SHIFT in [15], WINDOW in [14:0] (R40, R54). -/
def windowResp (shift : Nat) (window : BitVec 15) : Word :=
  (BitVec.ofNat 32 shift <<< 15) ||| window.setWidth 32

/-- RDPIX's RESP: the pixel in [0] (R40, R62). -/
def pixelResp (p : Pixel) : Word := if p then 1 else 0

end Sys2Proof.Machine
end

