-- ==== Sys2Proof/Machine/Ops.lean ====
section
/-! DEFINITION. The shared operations: the stores FB and RASTER, the response, the error, and reset.

There is no exception entry and no return from one (R77): an error is a response, `raiseError`. -/
namespace Sys2Proof.Machine

/-! ## Sparse lists -/

/-- The value at a key: all zeros where the list names none. -/
def Sparse.read {w : Nat} : List (Nat × BitVec w) → Nat → BitVec w
  | [], _ => 0#w
  | (k, v) :: m, a => if k = a then v else Sparse.read m a

/-- An entry put in front, unless it says what an unlisted key says. -/
def Sparse.cons {w : Nat} (k : Nat) (v : BitVec w) (m : List (Nat × BitVec w)) : List (Nat × BitVec w) :=
  if v == 0#w then m else (k, v) :: m

/-- The list with the value at one key replaced. -/
def Sparse.write {w : Nat} : List (Nat × BitVec w) → Nat → BitVec w → List (Nat × BitVec w)
  | [], a, u => Sparse.cons a u []
  | (k, v) :: m, a, u =>
    if a < k then Sparse.cons a u ((k, v) :: m)
    else if k = a then Sparse.cons a u m
    else (k, v) :: Sparse.write m a u

/-! ## FB -/

/-- The byte at an address of a frame; it has no side effect (R18). -/
def Memory.read (m : Memory) (a : Nat) : Byte := Sparse.read m a

/-- A byte sequence laid out from address `a` upwards. -/
def Memory.layOut : Nat → List Byte → Memory
  | _, [] => []
  | a, b :: bs => Sparse.cons a b (Memory.layOut (a + 1) bs)

/-- A frame latched whole: address `a` holds byte `a` of the sequence (R20, R65). -/
def Memory.ofBytes (bytes : List Byte) : Memory := Memory.layOut 0 bytes

/-! ## RASTER -/

/-- A raster line with one cell set to a pixel. -/
def RasterLine.set (line : RasterLine) (col : Nat) (p : Pixel) : RasterLine :=
  if p then line ||| BitVec.twoPow Config.rasterWidth col
  else line &&& ~~~ BitVec.twoPow Config.rasterWidth col

/-- RasterRead: the pixel at (row, col), for a cell inside the raster (R60). -/
def rasterRead (r : Raster) (row col : Nat) : Pixel :=
  BitVec.getLsbD (Sparse.read r row) col

/-- RasterWrite: one pixel; a write outside the raster is discarded (R58). -/
def rasterWrite (r : Raster) (row col : Nat) (p : Pixel) : Raster :=
  if inRaster row col then Sparse.write r row (RasterLine.set (Sparse.read r row) col p) else r

/-- RasterClear: every pixel off (R61). -/
def rasterClear : Raster := []

/-! ## The response -/

/-- End a command with a response (R39). -/
def respond (s : State) (resp : Word) (e : Err) : State :=
  { s with response := some ⟨resp, e.code⟩ }

/-- End a command with an error: RESP is 0 and nothing else changes (R39, R73). -/
def raiseError (s : State) (e : Err) : State := respond s 0 e

/-- The answer to an illegal command word (R38). -/
def illegalCommand (s : State) : State := raiseError s .illegalCommand

/-- A step with nothing to do: no command is pending, so none is answered (R81). -/
def waitForHost (s : State) : State := { s with response := none }

/-! ## The host's side of the port -/

/-- The command at the head is accepted: its buffer is on the data port (R35, R37). -/
def acceptCommand (s : State) (rest : List HostEvent) (buffer : List Byte) : State :=
  { s with pending := rest, inbuf := buffer }

/-- Reset: every element of the block takes its reset value and no response is given (R81, R82). The events
still pending are the host's and stay (log 1). -/
def resetBlock (s : State) : State :=
  { s with fb := none, raster := rasterClear, status := .idle, cursor := 0, inbuf := [], response := none }

/-- Whether the host asserts reset next (R82). -/
def resetArrives (s : State) : Bool := s.pending.head? == some .reset

end Sys2Proof.Machine
end

