-- ==== Sys2Proof/Machine/AddressMapper.lean ====
section
/-! DEFINITION. The address decoder: the forward and the inverse map, FWD and INV (40_address_mapper.md). -/
namespace Sys2Proof.Machine

/-- The interleave sum (R42). It is the forward map for a coordinate, `inCoordinateDomain x y`; no meaning
applies it outside (R42, D8). -/
def forward (x y : Nat) : Nat :=
  let offset := y % 8
  let row := y / 8 % 8
  let group := y / 64
  0x28 * group + 0x80 * row + 0x400 * offset + x / 7

/-- The coordinate of an address, with x the leftmost column of its byte; `none` for a hole and above 0x1FFF (R45). -/
def inverse (a : Nat) : Option (Nat × Nat) :=
  if a > 0x1FFF ∨ a % 0x80 ≥ 0x78 then none
  else
    let m := a % 0x80
    let group := m / 0x28
    let x := m % 0x28 * 7
    let offset := a / 0x400
    let row := (a - 0x28 * group - 0x400 * offset) / 0x80
    let y := group * 64 + row * 8 + offset
    some (x, y)

/-- FWD (R44). -/
def execFwd (x y : Nat) (s : State) : Outcome :=
  if inCoordinateDomain x y then .next (respond s (addressResp (forward x y)) .ok)
  else .next (raiseError s .domain)

/-- INV (R48). An invalid address is no error. -/
def execInv (a : Nat) (s : State) : Outcome :=
  .next (respond s (coordinateResp (inverse a)) .ok)

end Sys2Proof.Machine
end

