-- ==== Sys2Proof/Machine/BitExpander.lean ====
section
/-! DEFINITION. The bit-expander: one byte to its 15-position group window, and EXPAND (41_bit_expander.md). -/
namespace Sys2Proof.Machine

/-- Position `i` of a byte's window: the sample b = (i - s) div 2 inside the write set [s, s + 13], 0 outside (R52). -/
def windowAt (v : Byte) (i : Nat) : Bool :=
  if shiftOf v ≤ i ∧ i ≤ shiftOf v + 13 then sample v ((i - shiftOf v) / 2) else false

/-- `expand`: the shift and the window (R52). -/
def expand (v : Byte) : Nat × BitVec 15 :=
  (shiftOf v, BitVec.ofFnLE fun i : Fin 15 => windowAt v i.val)

/-- EXPAND (R54). -/
def execExpand (v : Byte) (s : State) : Outcome :=
  .next (respond s (windowResp (expand v).1 (expand v).2) .ok)

end Sys2Proof.Machine
end

