-- ==== Sys2Proof/Machine/RasterWriter.lean ====
section
/-! DEFINITION. The raster writer: one byte's writes, and RDPIX (42_raster_writer.md). -/
namespace Sys2Proof.Machine

/-- One raster write that a byte asks for, inside the raster or not. -/
structure PixelWrite where
  row : Nat
  col : Nat
  pixel : Pixel
  deriving DecidableEq, Repr

/-- RasterWrite of one such write (R58). -/
def PixelWrite.apply (r : Raster) (w : PixelWrite) : Raster := rasterWrite r w.row w.col w.pixel

/-- The writes of bit b of a byte: the left pixel, then the right one (R59). -/
def bitWrites (y x : Nat) (v : Byte) (b : Nat) : List PixelWrite :=
  let x0 := 2 * x + shiftOf v
  [⟨y, x0 + 2 * b, sample v b⟩, ⟨y, x0 + 2 * b + 1, sample v b⟩]

/-- The 14 writes of a byte at logical column x of scan line y, in their order (R59). -/
def groupWrites (y x : Nat) (v : Byte) : List PixelWrite :=
  (List.range 7).flatMap (bitWrites y x v)

/-- WriteGroup (R59). -/
def writeGroup (r : Raster) (y x : Nat) (v : Byte) : Raster :=
  (groupWrites y x v).foldl PixelWrite.apply r

/-- RDPIX (R62). Its errors in their order: NOT_READY, then DOMAIN (R74). -/
def execRdpix (col row : Nat) (s : State) : Outcome :=
  if s.status = .done then
    if inRaster row col then .next (respond s (pixelResp (rasterRead s.raster row col)) .ok)
    else .next (raiseError s .domain)
  else .next (raiseError s .notReady)

end Sys2Proof.Machine
end

