-- ==== Sys2Proof/Machine/FrameDecoder.lean ====
section
/-! DEFINITION. The frame sequencer: the pass, DFRAME and RDSTAT (43_frame_decoder.md). -/
namespace Sys2Proof.Machine

/-- What the byte at one address does to the raster: nothing for a hole, which is not read, else its WriteGroup (R63). -/
def decodeByte (m : Memory) (a : Nat) (r : Raster) : Raster :=
  match inverse a with
  | none => r
  | some (x, y) => writeGroup r y x (Memory.read m a)

/-- PassStep: one byte. It runs only while STATE is RUNNING and CURSOR is at most 8191 (R63), with a frame in FB
(R7, R18); otherwise nothing happens. -/
def passStep (s : State) : State :=
  match s.fb with
  | none => s
  | some m =>
    if s.status = .running ∧ s.cursor.toNat < Config.fbSize then
      { s with raster := decodeByte m s.cursor.toNat s.raster, cursor := s.cursor + 1 }
    else s

/-- `n` pass steps. -/
def passSteps : Nat → State → State
  | 0, s => s
  | n + 1, s => passSteps n (passStep s)

/-- The end of a pass: STATE becomes DONE (R64). -/
def finishPass (s : State) : State := { s with status := .done }

/-- Pass: 8192 pass steps, then DONE (R64). -/
def pass (s : State) : State := finishPass (passSteps Config.fbSize s)

/-- The start of a frame: the latch, the clear, CURSOR to 0, STATE to RUNNING (R65). -/
def startFrame (s : State) : State :=
  { s with fb := some (Memory.ofBytes s.inbuf), raster := rasterClear, cursor := 0, status := .running }

/-- DFRAME with a buffer of the wrong length: STATE becomes SIZE_ERROR (R66). -/
def rejectFrame (s : State) : State := { s with status := .sizeError }

/-- DFRAME (R65): the size check, then the frame. -/
def execDframe (s : State) : Outcome :=
  if s.inbuf.length = Config.fbSize then .next (respond (pass (startFrame s)) 0 .ok)
  else .next (raiseError (rejectFrame s) .size)

/-- RDSTAT (R71). -/
def execRdstat (s : State) : Outcome :=
  .next (respond s (statusWord s.status) .ok)

/-- One internal step from a state in the middle of a pass (R63, R64, log 4): a pass step, or after the last one
the end of the pass and DFRAME's response. The fault is for states that R63 gives no step. -/
def sequencerStep (s : State) : Outcome :=
  if s.fb.isSome ∧ s.cursor.toNat ≤ Config.fbSize then
    if s.cursor.toNat = Config.fbSize then .next (respond (finishPass s) 0 .ok)
    else .next (waitForHost (passStep s))
  else .fault .passCannotRun

/-- How far a command that is overtaken by a reset has come (R82, log 3): a DFRAME may have rejected its buffer,
or begun its frame and done `steps` pass steps; no other command writes state. -/
def underWay (steps : Nat) (i : Instr) (s : State) : State :=
  match i with
  | .dframe => if s.inbuf.length = Config.fbSize then passSteps steps (startFrame s) else rejectFrame s
  | .fwd _ _ => s
  | .inv _ => s
  | .expand _ => s
  | .rdpix _ _ => s
  | .rdstat => s

/-- A command that a reset overtakes: what it has done is reset, and it gives no response (R82). -/
def abandonCommand (word : Word) (steps : Nat) (s : State) : State :=
  match decode word with
  | .instr i => resetBlock (underWay steps i s)
  | .illegal _ => resetBlock s

end Sys2Proof.Machine
end

