-- ==== Sys2Proof/Machine/Dispatch.lean ====
section
/-! DEFINITION. One arm per command of the opcode table (R36). -/
namespace Sys2Proof.Machine

def exec (i : Instr) (s : State) : Host.Outcome State Fault Refusal :=
  match i with
  | .fwd x y => Sys2Proof.Machine.execFwd x y s
  | .inv a => Sys2Proof.Machine.execInv a s
  | .expand v => Sys2Proof.Machine.execExpand v s
  | .dframe => Sys2Proof.Machine.execDframe s
  | .rdpix col row => Sys2Proof.Machine.execRdpix col row s
  | .rdstat => Sys2Proof.Machine.execRdstat s

end Sys2Proof.Machine
end

