-- ==== Sys2Proof/Machine/Step.lean ====
section
/-! DEFINITION. One step of the machine: one host event, or one internal step of a pass that a state holds.

The block fetches nothing (R15, R28): its next command is the first pending event of the host (R35, log 1). -/
namespace Sys2Proof.Machine

/-- What the port does with a command word: the command's meaning, or ILLEGAL_COMMAND (R36, R38). -/
def runCommand (word : Word) (s : State) : Outcome :=
  match decode word with
  | .instr i => exec i s
  | .illegal _ => .next (illegalCommand s)

/-- The step that takes the host's next event; with none the block waits (R81). -/
def hostStep (s : State) : Outcome :=
  match s.pending with
  | [] => .next (waitForHost s)
  | .command word buffer :: rest => runCommand word (acceptCommand s rest buffer)
  | .reset :: rest => .next (resetBlock (acceptCommand s rest []))
  | .resetDuring word buffer steps :: rest => .next (abandonCommand word steps (acceptCommand s rest buffer))

/-- One step. A reset is taken at any time (R82). While a pass runs no command is accepted (R12, R35) and the step
is the sequencer's; otherwise it is the host's. -/
def step (s : State) : Host.Outcome State Fault Refusal :=
  if s.status = .running ∧ resetArrives s = false then sequencerStep s else hostStep s

/-- The buffer that `withFetchWord` puts on the data port: for DFRAME, whose operand it is (R37), 8192 zero bytes;
for any other word nothing (log 7). -/
def bufferFor (word : Word) : List Byte :=
  match decode word with
  | .instr .dframe => List.replicate Config.fbSize 0
  | _ => []

/-- The state with a table row's word as the host's next command, so that the next step runs it (log 7). A state in
the middle of a pass accepts no command (R35), so its STATE becomes IDLE; no run reaches such a state. -/
def State.withFetchWord (s : State) (nbits w : Nat) : State :=
  match tableWord nbits w with
  | none => s
  | some word =>
    { s with
      pending := .command word (bufferFor word) :: s.pending
      status := if s.status = .running then .idle else s.status }

end Sys2Proof.Machine
end

