-- ==== Sys2Proof/Machine/Assembler.lean ====
section
/-! DEFINITION. The assembler's syntax and the word each line encodes (R41). It stands beside the machine: the block
sees words only. -/
namespace Sys2Proof.Machine

/-- A line of assembly with its operands as written (R41). -/
inductive AsmLine where
  | fwd (x y : Nat)
  | inv (a : Nat)
  | expand (v : Nat)
  | dframe
  | rdpix (col row : Nat)
  | rdstat
  /-- `.word w`: a raw word, which may be illegal. -/
  | word (w : Nat)
  deriving DecidableEq, Repr

/-- The word a line encodes; `none` when an operand is too wide for its field. A value that fits its field but lies
outside the command's domain is not refused (R41). -/
def assemble : AsmLine → Option Word
  | .fwd x y =>
    if x > 511 ∨ y > 255 then none else some (0x10000000#32 ||| (BitVec.ofNat 32 y <<< 16) ||| BitVec.ofNat 32 x)
  | .inv a => if a > 0xFFFF then none else some (0x20000000#32 ||| BitVec.ofNat 32 a)
  | .expand v => if v > 255 then none else some (0x30000000#32 ||| BitVec.ofNat 32 v)
  | .dframe => some 0x40000000#32
  | .rdpix col row =>
    if col > 1023 ∨ row > 255 then none
    else some (0x50000000#32 ||| (BitVec.ofNat 32 row <<< 16) ||| BitVec.ofNat 32 col)
  | .rdstat => some 0x60000000#32
  | .word w => if w > 0xFFFFFFFF then none else some (BitVec.ofNat 32 w)

/-- The value of a digit in base 10 or 16; letters of either case (log 10). -/
def digitValue (base : Nat) (c : Char) : Option Nat :=
  let n := c.toNat
  let v :=
    if 48 ≤ n ∧ n ≤ 57 then n - 48
    else if 65 ≤ n ∧ n ≤ 70 then n - 55
    else if 97 ≤ n ∧ n ≤ 102 then n - 87
    else 16
  if v < base then some v else none

/-- A digit string appended to the value read so far. -/
def readDigits (base : Nat) : Nat → List Char → Option Nat
  | acc, [] => some acc
  | acc, c :: cs =>
    match digitValue base c with
    | none => none
    | some d => readDigits base (acc * base + d) cs

/-- An operand: a decimal natural or a `0x` hexadecimal one (R41). -/
def readOperand : List Char → Option Nat
  | [] => none
  | ['0', 'x'] => none
  | '0' :: 'x' :: cs => readDigits 16 0 cs
  | cs => readDigits 10 0 cs

/-- The characters before a comment, which `;` begins (R41). -/
def dropComment (line : List Char) : List Char := line.takeWhile (· != ';')

/-- The characters without the spaces around them (log 10). -/
def trimSpaces (cs : List Char) : List Char :=
  ((cs.dropWhile (· == ' ')).reverse.dropWhile (· == ' ')).reverse

/-- The parts of a text between its commas. -/
def splitCommas : List Char → List (List Char)
  | [] => [[]]
  | c :: cs =>
    if c == ',' then [] :: splitCommas cs
    else
      match splitCommas cs with
      | [] => [[c]]
      | part :: parts => (c :: part) :: parts

/-- The operands after a mnemonic, none for a blank rest. -/
def readOperands (rest : List Char) : Option (List Nat) :=
  match trimSpaces rest with
  | [] => some []
  | cs => (splitCommas cs).mapM fun part => readOperand (trimSpaces part)

/-- A line from its mnemonic and its operands (R41). There are no pseudo-instructions. -/
def lineOf (mnemonic : List Char) (operands : List Nat) : Option AsmLine :=
  match String.ofList mnemonic, operands with
  | "FWD", [x, y] => some (.fwd x y)
  | "INV", [a] => some (.inv a)
  | "EXPAND", [v] => some (.expand v)
  | "DFRAME", [] => some .dframe
  | "RDPIX", [col, row] => some (.rdpix col row)
  | "RDSTAT", [] => some .rdstat
  | ".word", [w] => some (.word w)
  | _, _ => none

/-- A line of assembly text: a mnemonic, then its operands separated by commas (R41). -/
def parseLine (line : String) : Option AsmLine :=
  let code := trimSpaces (dropComment line.toList)
  match readOperands (code.dropWhile (· != ' ')) with
  | none => none
  | some operands => lineOf (code.takeWhile (· != ' ')) operands

/-- Assembly text to its word (R41). -/
def assembleText (line : String) : Option Word :=
  match parseLine line with
  | none => none
  | some l => assemble l

/-- The command a line stands for; `.word` stands for whatever its word decodes to, so for none here. -/
def AsmLine.instr : AsmLine → Option Instr
  | .fwd x y => some (.fwd x y)
  | .inv a => some (.inv a)
  | .expand v => some (.expand (BitVec.ofNat 8 v))
  | .dframe => some .dframe
  | .rdpix col row => some (.rdpix col row)
  | .rdstat => some .rdstat
  | .word _ => none

end Sys2Proof.Machine
end

