-- ==== Sys2Proof/Safety.lean ====
section
/-! DEFINITION. What the statements about runs are said in: the raster a pass leaves, the invariant of every state
a run reaches, and what the host can see. -/
namespace Sys2Proof.Machine

/-! ## The pass as a list of writes -/

/-- The raster writes of the byte at one address: none for a hole (R63). -/
def byteWrites (m : Memory) (a : Nat) : List PixelWrite :=
  match inverse a with
  | none => []
  | some (x, y) => groupWrites y x (Memory.read m a)

/-- The writes of a whole pass over a frame, in their order (R26, R64). -/
def passWrites (m : Memory) : List PixelWrite := (List.range Config.fbSize).flatMap (byteWrites m)

/-- Those of a list of writes that go to one cell. -/
def writesTo (row col : Nat) (ws : List PixelWrite) : List PixelWrite :=
  ws.filter fun w => w.row == row && w.col == col

/-- The raster after the bytes at addresses 0 to n - 1 of a frame, from a cleared one (R63, R64). -/
def rasterAfter (m : Memory) (n : Nat) : Raster :=
  (List.range n).foldl (fun r a => decodeByte m a r) rasterClear

/-! ## The closed form -/

/-- v_k: the byte of byte column k of scan line y (R67). -/
def lineByte (m : Memory) (y k : Nat) : Byte := Memory.read m (forward (7 * k) y)

/-- The closed form of a pixel (R67). -/
def closedPixel (m : Memory) (y c : Nat) : Pixel :=
  let k := c / 14
  let j := c % 14
  if shiftBit (lineByte m y k) then
    if j = 0 then
      if k ≥ 1 ∧ shiftBit (lineByte m y (k - 1)) then sample (lineByte m y (k - 1)) 6 else false
    else sample (lineByte m y k) ((j - 1) / 2)
  else sample (lineByte m y k) (j / 2)

/-! ## The invariant -/

/-- What holds of every state a run reaches. -/
structure Inv (s : State) : Prop where
  /-- FB is in canonical form (R6). -/
  fbCanonical : ∀ m, s.fb = some m → Memory.wf m = true
  /-- RASTER is in canonical form (R8). -/
  rasterCanonical : Raster.wf s.raster = true
  /-- Before the first latch nothing has been written (R7, R10, R13). -/
  beforeFirstFrame :
    s.fb = none → s.raster = rasterClear ∧ s.cursor = 0 ∧ (s.status = .idle ∨ s.status = .sizeError)
  /-- CURSOR holds 0 to 8192 (R13). -/
  cursorInRange : s.cursor.toNat ≤ Config.fbSize
  /-- After a latch RASTER is what the bytes below CURSOR make of a cleared one (R64, R70). -/
  rasterOfFrame : ∀ m, s.fb = some m → s.raster = rasterAfter m s.cursor.toNat
  /-- IDLE is left for good by a latch, and outside a pass CURSOR stands at its end (R12, R13). -/
  passComplete :
    ∀ m, s.fb = some m → s.status ≠ .idle ∧ (s.status ≠ .running → s.cursor.toNat = Config.fbSize)

/-- The states in which the port takes a command: no pass is in progress (R12, R35). -/
def AtPort (s : State) : Prop := s.status ≠ .running

/-- No raster is readable, and no pending command is a DFRAME with a whole frame (R62, R83). -/
def NoFrameYet (s : State) : Prop :=
  (s.status = .idle ∨ s.status = .sizeError) ∧
    ∀ w b, .command w b ∈ s.pending → ¬(w = 0x40000000#32 ∧ b.length = 8192)

/-! ## What the host sees -/

/-- The response that an outcome carries, if it is a next state. -/
def responseOf : Outcome → Option Response
  | .next t => t.response
  | .fault _ => none
  | .refused _ => none

/-- Two states that the host cannot tell apart (R17): the same STATE, the same raster where RDPIX may read it, and
the same host. FB, CURSOR and an unreadable RASTER may differ. -/
def SameToHost (s t : State) : Prop :=
  s.status = t.status ∧ s.pending = t.pending ∧
    (s.status = .done → ∀ row col, inRaster row col = true → rasterRead s.raster row col = rasterRead t.raster row col)

end Sys2Proof.Machine
end

