-- ==== Sys2Proof/Certificates/Slice0/Obligations.lean ====
section
/-! DEFINITION. The statements for the provers, in the order of the spec's files. ERR is written as its number:
0 OK, 1 ILLEGAL_COMMAND, 2 DOMAIN, 3 SIZE, 4 NOT_READY (R72). -/

open Sys2Proof Sys2Proof.Machine

/-! ## Observation and framebuffer (10_state.md, 20_memory.md) -/

/-- R12: every change of STATE, at every step and inside DFRAME. -/
def Obligations.StatusTransitions : Prop :=
  (∀ s t : State, step s = .next t →
    match s.pending with
    | .reset :: _ => t.status = .idle
    | events =>
      if s.status = .running then t.status = if s.cursor.toNat = 8192 then .done else .running
      else
        match events with
        | .command w buffer :: _ =>
          t.status = if w = 0x40000000#32 then (if buffer.length = 8192 then .done else .sizeError) else s.status
        | .resetDuring _ _ _ :: _ => t.status = .idle
        | _ => t.status = s.status) ∧
  (∀ s : State, (startFrame s).status = .running ∧ (finishPass s).status = .done) ∧
  ∀ s t : State, AtPort s → step s = .next t → AtPort t

/-- R13: the values of CURSOR, and what changes it, in states that a run reaches (`Inv`). -/
def Obligations.CursorOnlyMovesInPass : Prop :=
  ∀ s t : State, Inv s → step s = .next t →
    t.cursor.toNat ≤ 8192 ∧
    (resetArrives s = false → s.status = .running →
      t.cursor.toNat = if s.cursor.toNat = 8192 then 8192 else s.cursor.toNat + 1) ∧
    (AtPort s → ∀ w buffer rest, s.pending = .command w buffer :: rest →
      t.cursor = if w = 0x40000000#32 ∧ buffer.length = 8192 then 8192 else s.cursor) ∧
    (AtPort s → s.pending = [] → t.cursor = s.cursor) ∧
    (AtPort s → ∀ w b n rest, s.pending = .resetDuring w b n :: rest → t.cursor = 0) ∧
    ((∃ rest, s.pending = .reset :: rest) → t.cursor = 0)

/-- R10, R61: the clear, after reset and at the start of every frame's pass. -/
def Obligations.RasterStartsOff : Prop :=
  (∀ row col, rasterRead rasterClear row col = false) ∧ State.reset.raster = rasterClear ∧
  ∀ (s : State) (row col : Nat), rasterRead (startFrame s).raster row col = false ∧
    rasterRead (resetBlock s).raster row col = false

/-- R17: two states the host cannot tell apart stay so, and give the same responses, whatever it does. -/
def Obligations.HostSeesOnlyItsView : Prop :=
  ∀ s t s' t' : State, AtPort s → SameToHost s t → step s = .next s' → step t = .next t' →
    s'.response = t'.response ∧ SameToHost s' t'

/-- R20: FB changes only by a whole latch (or reset), and a pass leaves it alone. -/
def Obligations.FramebufferWrittenWhole : Prop :=
  (∀ s t : State, step s = .next t →
    t.fb = s.fb ∨
    (t.fb = none ∧ ∃ rest, s.pending = .reset :: rest ∨ ∃ w b n, s.pending = .resetDuring w b n :: rest) ∨
    ∃ buffer rest, s.pending = .command 0x40000000#32 buffer :: rest ∧ buffer.length = 8192 ∧
      t.fb = some (Memory.ofBytes buffer)) ∧
  (∀ (n : Nat) (s : State), (passSteps n s).fb = s.fb) ∧
  ∀ (buffer : List Byte) (a : Nat) (h : a < buffer.length), buffer.length = 8192 →
    Memory.read (Memory.ofBytes buffer) a = buffer[a]

/-! ## Encodings (30_encoding.md) -/

/-- R30: the three fields of a valid address. -/
def Obligations.AddressWordFields : Prop :=
  ∀ a, isValidAddress a = true →
    ∃ x y, inverse a = some (x, y) ∧ x ≤ 273 ∧ y ≤ 191 ∧
      bits a 12 10 = y % 8 ∧ bits a 9 7 = y / 8 % 8 ∧ bits a 6 0 = 40 * (y / 64) + x / 7 ∧
      bits a 6 0 / 40 = y / 64 ∧ bits a 6 0 % 40 = x / 7 ∧
      a = 0x28 * (y / 64) + 0x80 * (y / 8 % 8) + 0x400 * (y % 8) + x / 7 ∧
      a = (BitVec.ofNat 3 (y % 8) ++ BitVec.ofNat 3 (y / 8 % 8) ++ BitVec.ofNat 7 (40 * (y / 64) + x / 7)).toNat

/-- R38: a word is legal exactly when it matches one row of the opcode table, and never two; an illegal one answers
ILLEGAL_COMMAND with RESP 0 and changes nothing. -/
def Obligations.LegalWordsMatchOneRow : Prop :=
  (∀ w : Word, (∃ i, decode w = .instr i) ↔ (opcodeTable.filter (·.holds w)).length = 1) ∧
  (∀ w : Word, (opcodeTable.filter (·.holds w)).length ≤ 1) ∧
  (∀ (w : Word) (i : Instr), decode w = .instr i → i.row.holds w = true) ∧
  (∀ (w : Word) (s : State), (slice w 31 28 = 0 ∨ slice w 31 28 ≥ 7) →
    runCommand w s = .next { s with response := some ⟨0, 1⟩ }) ∧
  ∀ (w : Word) (s : State), (∀ row ∈ opcodeTable, row.holds w = false) →
    runCommand w s = .next { s with response := some ⟨0, 1⟩ }

/-- R37: decoding an encoded command gives it back, at every value its fields admit. -/
def Obligations.DecodeOfEncode : Prop :=
  ∀ i : Instr, i.wf = true → decode (encode i) = .instr i

/-- R37: a legal word is the encoding of the one command it decodes to, whose operands fit their fields. -/
def Obligations.EncodeOfDecode : Prop :=
  ∀ (w : Word) (i : Instr), decode w = .instr i → encode i = w ∧ i.wf = true

/-- Words written out bit by bit from R37's patterns decode to the command they stand for. -/
def Obligations.WrittenWordsDecode : Prop :=
  decode 0b00010000101000100000000001001101#32 = .instr (.fwd 77 162) ∧
  decode 0b00100000000000000000101001011011#32 = .instr (.inv 0x0A5B) ∧
  decode 0b00110000000000000000000010000001#32 = .instr (.expand 0x81) ∧
  decode 0b01000000000000000000000000000000#32 = .instr .dframe ∧
  decode 0b01010000000000000000001000101111#32 = .instr (.rdpix 559 0) ∧
  decode 0b01100000000000000000000000000000#32 = .instr .rdstat

/-- R39: every command word is answered, with a RESP that is 0 whenever ERR is not 0. -/
def Obligations.EveryCommandAnswers : Prop :=
  ∀ (w : Word) (s : State), ∃ t r, runCommand w s = .next t ∧ t.response = some r ∧
    r.err.toNat ≤ 4 ∧ (r.err ≠ 0 → r.resp = 0) ∧ t.pending = s.pending

/-- R40: the fields of every response with ERR = 0, and zeros elsewhere. -/
def Obligations.ResponseLayouts : Prop :=
  (∀ x y s t r, exec (.fwd x y) s = .next t → t.response = some ⟨r, 0⟩ →
    slice r 12 0 = forward x y ∧ slice r 31 13 = 0) ∧
  (∀ a x y s t r, exec (.inv a) s = .next t → t.response = some ⟨r, 0⟩ → inverse a = some (x, y) →
    slice r 31 31 = 1 ∧ slice r 30 24 = 0 ∧ slice r 23 16 = y ∧ slice r 15 9 = 0 ∧ slice r 8 0 = x) ∧
  (∀ a s t r, exec (.inv a) s = .next t → t.response = some ⟨r, 0⟩ → inverse a = none → r = 0) ∧
  (∀ v s t r, exec (.expand v) s = .next t → t.response = some ⟨r, 0⟩ →
    slice r 31 16 = 0 ∧ slice r 15 15 = (expand v).1 ∧ slice r 14 0 = (expand v).2.toNat) ∧
  (∀ s t r, exec .dframe s = .next t → t.response = some ⟨r, 0⟩ → r = 0) ∧
  (∀ col row s t r, exec (.rdpix col row) s = .next t → t.response = some ⟨r, 0⟩ →
    slice r 31 1 = 0 ∧ slice r 0 0 = if rasterRead s.raster row col then 1 else 0) ∧
  (∀ s t r, exec .rdstat s = .next t → t.response = some ⟨r, 0⟩ →
    slice r 31 2 = 0 ∧ slice r 1 0 = s.status.code)

/-- R41: the words of the assembler, what it refuses, and what it leaves to the block. -/
def Obligations.AssemblerWords : Prop :=
  (∀ (l : AsmLine) (i : Instr), l.instr = some i → ∀ w, assemble l = some w → w = encode i ∧ decode w = .instr i) ∧
  (∀ x y, assemble (.fwd x y) = none ↔ x > 511 ∨ y > 255) ∧
  (∀ a, assemble (.inv a) = none ↔ a > 0xFFFF) ∧
  (∀ v, assemble (.expand v) = none ↔ v > 255) ∧
  (∀ col row, assemble (.rdpix col row) = none ↔ col > 1023 ∨ row > 255) ∧
  (assemble .dframe = some 0x40000000#32 ∧ assemble .rdstat = some 0x60000000#32) ∧
  (∀ w : Word, assemble (.word w.toNat) = some w) ∧
  (∀ x y w s, assemble (.fwd x y) = some w → (x > 279 ∨ y > 191) →
    runCommand w s = .next { s with response := some ⟨0, 2⟩ }) ∧
  assembleText "FWD 77, 162" = some 0x10A2004D#32 ∧
  assembleText "INV 0x0A5B" = some 0x20000A5B#32 ∧
  assembleText "EXPAND 0x81" = some 0x30000081#32 ∧
  assembleText "DFRAME ; INBUF = 8192 x 0x00" = some 0x40000000#32 ∧
  assembleText "RDPIX 559, 0" = some 0x5000022F#32 ∧
  assembleText "RDSTAT" = some 0x60000000#32 ∧
  assembleText ".word 0x70000000" = some 0x70000000#32 ∧
  assembleText "FWD 512, 0" = none

/-! ## Address decoder (40_address_mapper.md) -/

/-- R42: the interleave sum, its range, and the seven columns that share an address; DOMAIN outside. -/
def Obligations.ForwardInterleaveSum : Prop :=
  (∀ x y, x ≤ 279 → y ≤ 191 →
    forward x y = 0x28 * (y / 64) + 0x80 * (y / 8 % 8) + 0x400 * (y % 8) + x / 7 ∧
    forward x y ≤ 0x1FF7 ∧ isValidAddress (forward x y) = true ∧
    ∀ x', x' / 7 = x / 7 → forward x' y = forward x y) ∧
  ∀ x y s, (x > 279 ∨ y > 191) → exec (.fwd x y) s = .next { s with response := some ⟨0, 2⟩ }

/-- R43: the bit-field forms of the forward map. -/
def Obligations.ForwardBitFields : Prop :=
  ∀ x y, x ≤ 279 → y ≤ 191 →
    bits y 7 6 = y / 64 ∧ bits y 5 3 = y / 8 % 8 ∧ bits y 2 0 = y % 8 ∧
    forward x y = (bits y 2 0 <<< 10) ||| (bits y 5 3 <<< 7) ||| (40 * bits y 7 6 + x / 7) ∧
    forward x y = (bits y 2 0 <<< 10) + (bits y 5 3 <<< 7) + (40 * bits y 7 6 + x / 7) ∧
    forward x y = (BitVec.ofNat 3 (bits y 2 0) ++ BitVec.ofNat 3 (bits y 5 3) ++
      BitVec.ofNat 7 (40 * bits y 7 6 + x / 7)).toNat

/-- R46: the bit-field form of the inverse map. -/
def Obligations.InverseBitFields : Prop :=
  ∀ a, isValidAddress a = true →
    inverse a = some (7 * (bits a 6 0 % 40), 64 * (bits a 6 0 / 40) + 8 * bits a 9 7 + bits a 12 10) ∧
    64 * (bits a 6 0 / 40) + 8 * bits a 9 7 + bits a 12 10 =
      (BitVec.ofNat 2 (bits a 6 0 / 40) ++ BitVec.ofNat 3 (bits a 9 7) ++ BitVec.ofNat 3 (bits a 12 10)).toNat

/-- R47, R31: valid addresses, holes and the rest, and how many there are of each. -/
def Obligations.AddressClassification : Prop :=
  (∀ a, isValidAddress a = true ↔ a ≤ 0x1FFF ∧ bits a 6 0 ≤ 0x77) ∧
  (∀ a, isHole a = true ↔ a ≤ 0x1FFF ∧ bits a 6 0 ≥ 0x78) ∧
  (∀ a, inverse a = none ↔ isHole a = true ∨ a > 0x1FFF) ∧
  (∀ a, a % 0x80 ≥ 0x78 → inverse a = none) ∧
  (∀ a, a ≤ 0x1FFF → (isHole a = true ↔ bits a 6 3 = 0b1111)) ∧
  (∀ a, a ≤ 0x1FFF → (isHole a = true ↔ a &&& 0x0078 = 0x0078)) ∧
  (∀ a, isHole a = true ↔ ∃ n j, n < 64 ∧ j < 8 ∧ a = 0x80 * n + 0x78 + j) ∧
  ((List.range 8192).filter isValidAddress).length = 7680 ∧
  ((List.range 8192).filter isHole).length = 512 ∧
  ∀ x y, x ≤ 279 → y ≤ 191 → isValidAddress (forward x y) = true

/-- R49: the two round trips. -/
def Obligations.MapperRoundTrip : Prop :=
  (∀ x y, x ≤ 279 → y ≤ 191 → inverse (forward x y) = some (7 * (x / 7), y)) ∧
  ∀ a, isValidAddress a = true → ∃ x y, inverse a = some (x, y) ∧ ∀ x', x' / 7 = x / 7 → forward x' y = a

/-- R50: byte coordinates and valid addresses are in bijection. -/
def Obligations.MapperBijection : Prop :=
  (∀ k y k' y', k ≤ 39 → y ≤ 191 → k' ≤ 39 → y' ≤ 191 → forward (7 * k) y = forward (7 * k') y' → k = k' ∧ y = y') ∧
  (∀ a, isValidAddress a = true ↔ ∃ k y, k ≤ 39 ∧ y ≤ 191 ∧ forward (7 * k) y = a) ∧
  (∀ a b, isValidAddress a = true → isValidAddress b = true → inverse a = inverse b → a = b) ∧
  (∃ x x' y, x ≤ 279 ∧ x' ≤ 279 ∧ y ≤ 191 ∧ x ≠ x' ∧ forward x y = forward x' y) ∧
  ∀ x y, (∃ a, isValidAddress a = true ∧ inverse a = some (x, y)) ↔ ∃ k, k ≤ 39 ∧ x = 7 * k ∧ y ≤ 191

/-- R51: the strides of the interleave. -/
def Obligations.InterleaveStrides : Prop :=
  ∀ y, y ≤ 191 →
    (∀ k, k ≤ 38 → forward (7 * (k + 1)) y = forward (7 * k) y + 1) ∧
    (∀ k, k ≤ 39 → forward (7 * k) y = forward 0 y + k) ∧
    (y % 8 ≠ 7 → forward 0 (y + 1) = forward 0 y + 0x400) ∧
    (y % 8 = 7 → y % 64 ≠ 63 → forward 0 (y + 1) + 0x1C00 = forward 0 y + 0x80) ∧
    (y % 64 = 63 → y < 191 → forward 0 (y + 1) + 0x1F80 = forward 0 y + 0x28)

/-- R44: FWD as a command word, its errors in their order, its corner cases and its example. -/
def Obligations.FwdCommandWord : Prop :=
  (∀ (w : Word) (s : State), slice w 31 28 = 1 →
    runCommand w s =
      if slice w 27 24 ≠ 0 ∨ slice w 15 9 ≠ 0 then .next { s with response := some ⟨0, 1⟩ }
      else if slice w 8 0 > 279 ∨ slice w 23 16 > 191 then .next { s with response := some ⟨0, 2⟩ }
      else .next { s with response := some ⟨BitVec.ofNat 32 (forward (slice w 8 0) (slice w 23 16)), 0⟩ }) ∧
  (∀ x x' y, x / 7 = x' / 7 → forward x y = forward x' y) ∧ (∀ y, forward 279 y = forward (7 * 39) y) ∧
  (∀ x, x ≤ 6 → forward x 0 = 0) ∧ (∀ x, 273 ≤ x → x ≤ 279 → forward x 191 = 0x1FF7) ∧
  (∀ x y, x ≤ 279 → y ≤ 191 → forward x y ≤ 0x1FF7) ∧
  ∀ s : State, runCommand 0x10A2004D#32 s = .next { s with response := some ⟨0x00000A5B#32, 0⟩ }

/-- R48: INV as a command word, its corner cases and its example. -/
def Obligations.InvCommandWord : Prop :=
  (∀ (w : Word) (s : State), slice w 31 28 = 2 →
    runCommand w s =
      if slice w 27 16 ≠ 0 then .next { s with response := some ⟨0, 1⟩ }
      else
        match inverse (slice w 15 0) with
        | none => .next { s with response := some ⟨0, 0⟩ }
        | some (x, y) =>
          .next { s with response := some ⟨(1#32 <<< 31) ||| (BitVec.ofNat 32 y <<< 16) ||| BitVec.ofNat 32 x, 0⟩ }) ∧
  inverse 0x0077 = some (273, 128) ∧ inverse 0x1FF7 = some (273, 191) ∧
  (∀ a, 0x0078 ≤ a → a ≤ 0x007F → inverse a = none) ∧
  (∀ a, 0x1FF8 ≤ a → a ≤ 0xFFFF → inverse a = none) ∧
  ∀ s : State, runCommand 0x20000A5B#32 s = .next { s with response := some ⟨0x80A2004D#32, 0⟩ }

/-- FWD answers on every coordinate, and changes nothing but the response. -/
def Obligations.FwdCompletes : Prop :=
  ∀ x y s, x ≤ 279 → y ≤ 191 →
    ∃ r : Word, exec (.fwd x y) s = .next { s with response := some ⟨r, 0⟩ } ∧
      r.toNat = 0x28 * (y / 64) + 0x80 * (y / 8 % 8) + 0x400 * (y % 8) + x / 7

/-- INV answers on every natural address, hole or not, and changes nothing but the response. -/
def Obligations.InvCompletes : Prop :=
  ∀ a s, ∃ r : Word, exec (.inv a) s = .next { s with response := some ⟨r, 0⟩ } ∧
    if a ≤ 0x1FFF ∧ a % 0x80 ≤ 0x77 then
      r.toNat = 2 ^ 31 + (64 * (a % 0x80 / 40) + 8 * (a / 0x80 % 8) + a / 0x400) * 2 ^ 16 + 7 * (a % 0x80 % 40)
    else r = 0

/-! ## Bit-expander (41_bit_expander.md) -/

/-- R52: the shift, the window and the write set of every byte. -/
def Obligations.ExpandWindow : Prop :=
  ∀ v : Byte,
    (expand v).1 = bits v.toNat 7 7 ∧
    (∀ x y, (groupWrites y x v).map PixelWrite.col = (List.range 14).map fun i => 2 * x + ((expand v).1 + i)) ∧
    (∀ i, i < 15 → (expand v).2.getLsbD i =
      if (expand v).1 ≤ i ∧ i ≤ (expand v).1 + 13 then v.getLsbD ((i - (expand v).1) / 2) else false) ∧
    ∀ b, b ≤ 6 →
      (expand v).2.getLsbD ((expand v).1 + 2 * b) = v.getLsbD b ∧
      (expand v).2.getLsbD ((expand v).1 + 2 * b + 1) = v.getLsbD b

/-- R53: exactly the columns a byte writes, in order, with the values of its window. -/
def Obligations.ColumnsOfOneByte : Prop :=
  ∀ (m : Memory) (a x y : Nat), inverse a = some (x, y) →
    ∃ k, k ≤ 39 ∧ x = 7 * k ∧
      byteWrites m a =
        (List.range 14).map fun i =>
          ⟨y, 14 * k + (expand (Memory.read m a)).1 + i,
            (expand (Memory.read m a)).2.getLsbD ((expand (Memory.read m a)).1 + i)⟩

/-- R54: EXPAND as a command word, its corner cases and its example. -/
def Obligations.ExpandCommandWord : Prop :=
  (∀ (w : Word) (s : State), slice w 31 28 = 3 →
    runCommand w s =
      if slice w 27 8 ≠ 0 then .next { s with response := some ⟨0, 1⟩ }
      else
        .next { s with
          response := some
            ⟨(BitVec.ofNat 32 (expand (BitVec.ofNat 8 (slice w 7 0))).1 <<< 15) |||
              (expand (BitVec.ofNat 8 (slice w 7 0))).2.setWidth 32, 0⟩ }) ∧
  expand 0x00 = (0, 0) ∧ expand 0x80 = (1, 0) ∧ expand 0x7F = (0, 0x3FFF) ∧ expand 0xFF = (1, 0x7FFE) ∧
  (∀ y k, groupWrites y (7 * k) 0x80 = (List.range 14).map fun i => ⟨y, 14 * k + 1 + i, false⟩) ∧
  (∀ v : Byte, (expand v).1 = 1 → (expand v).2.getLsbD 0 = false) ∧
  (∀ v : Byte, (expand v).1 = 0 → (expand v).2.getLsbD 14 = false) ∧
  ∀ s : State, runCommand 0x30000081#32 s = .next { s with response := some ⟨0x00008006#32, 0⟩ }

/-- EXPAND answers on every byte, and changes nothing but the response. -/
def Obligations.ExpandCompletes : Prop :=
  ∀ (v : Byte) (s : State), ∃ r : Word, exec (.expand v) s = .next { s with response := some ⟨r, 0⟩ } ∧
    ∀ i, r.getLsbD i =
      if i = 15 then v.getLsbD 7
      else if v.getLsbD 7 then decide (1 ≤ i ∧ i ≤ 14) && v.getLsbD ((i - 1) / 2)
      else decide (i ≤ 13) && v.getLsbD (i / 2)

/-- R56: seven lanes that do not read each other, and commute with OR and AND for one value of bit 7. -/
def Obligations.ExpandLanes : Prop :=
  (∀ (v : Byte) (b : Nat), b ≤ 6 →
    (expand v).2.getLsbD (2 * b + (expand v).1) = v.getLsbD b ∧
    (expand v).2.getLsbD (2 * b + (expand v).1 + 1) = v.getLsbD b) ∧
  ∀ u v : Byte, u.getLsbD 7 = v.getLsbD 7 →
    (expand u).1 = (expand v).1 ∧
    (expand (u ||| v)).2 = (expand u).2 ||| (expand v).2 ∧
    (expand (u &&& v)).2 = (expand u).2 &&& (expand v).2 ∧
    ∀ b, b ≤ 6 → u.getLsbD b = v.getLsbD b →
      (expand u).2.getLsbD (2 * b + (expand u).1) = (expand v).2.getLsbD (2 * b + (expand v).1) ∧
      (expand u).2.getLsbD (2 * b + (expand u).1 + 1) = (expand v).2.getLsbD (2 * b + (expand v).1 + 1)

/-- R57: the range of the columns written, and who writes its two ends. -/
def Obligations.WrittenColumnRange : Prop :=
  ∀ (m : Memory) (k y : Nat), k ≤ 39 → y ≤ 191 →
    (∀ w ∈ byteWrites m (forward (7 * k) y), w.row = y ∧ w.col ≤ 560) ∧
    ((∃ w ∈ byteWrites m (forward (7 * k) y), w.col = 560) ↔ k = 39 ∧ shiftBit (lineByte m y k) = true) ∧
    ((∃ w ∈ byteWrites m (forward (7 * k) y), w.col = 0) ↔ k = 0 ∧ shiftBit (lineByte m y k) = false) ∧
    (∀ w ∈ byteWrites m (forward (7 * k) y), w.col = 560 → w.pixel = sample (lineByte m y k) 6) ∧
    ∀ (r : Raster) (p : Pixel), rasterWrite r y 560 p = r

/-! ## Raster writer (42_raster_writer.md) -/

/-- R58: one raster write, inside the raster and outside it, and the only writes of a pass that lie outside. -/
def Obligations.RasterWriteCell : Prop :=
  (∀ (m : Memory), ∀ w ∈ passWrites m,
    w.row ≤ 191 ∧ (w.col ≤ 559 ∨ w.col = 560 ∧ shiftBit (lineByte m w.row 39) = true)) ∧
  ∀ (r : Raster) (row col : Nat) (p : Pixel), Raster.wf r = true →
    (row ≤ 191 ∧ col ≤ 559 →
      Raster.wf (rasterWrite r row col p) = true ∧
      ∀ row' col', rasterRead (rasterWrite r row col p) row' col' =
        if row' = row ∧ col' = col then p else rasterRead r row' col') ∧
    (¬(row ≤ 191 ∧ col ≤ 559) → rasterWrite r row col p = r)

/-- R59: the 14 writes of a byte, all to different columns, and what they leave in the raster, in whatever order. -/
def Obligations.WriteGroupColumns : Prop :=
  ∀ (r : Raster) (y x : Nat) (v : Byte), Raster.wf r = true → y ≤ 191 →
    groupWrites y x v =
      ((List.range 7).map fun b =>
        [⟨y, 2 * x + (expand v).1 + 2 * b, v.getLsbD b⟩, ⟨y, 2 * x + (expand v).1 + 2 * b + 1, v.getLsbD b⟩]).flatten ∧
    ((groupWrites y x v).map PixelWrite.col).Nodup ∧
    (∀ row col, row ≤ 191 → col ≤ 559 →
      rasterRead (writeGroup r y x v) row col =
        if row = y ∧ 2 * x + (expand v).1 ≤ col ∧ col ≤ 2 * x + (expand v).1 + 13 then
          (expand v).2.getLsbD (col - 2 * x)
        else rasterRead r row col) ∧
    ∀ ws : List PixelWrite, ws.Perm (groupWrites y x v) → ∀ row col, row ≤ 191 → col ≤ 559 →
      rasterRead (ws.foldl PixelWrite.apply r) row col = rasterRead (writeGroup r y x v) row col

/-- R62: RDPIX as a command word, its errors in their order, and its example. -/
def Obligations.RdpixCommandWord : Prop :=
  (∀ (w : Word) (s : State), slice w 31 28 = 5 →
    runCommand w s =
      if slice w 27 24 ≠ 0 ∨ slice w 15 10 ≠ 0 then .next { s with response := some ⟨0, 1⟩ }
      else if s.status ≠ .done then .next { s with response := some ⟨0, 4⟩ }
      else if slice w 9 0 > 559 ∨ slice w 23 16 > 191 then .next { s with response := some ⟨0, 2⟩ }
      else
        .next { s with
          response := some ⟨if rasterRead s.raster (slice w 23 16) (slice w 9 0) then 1 else 0, 0⟩ }) ∧
  ∀ s t : State, s.inbuf = List.replicate 8192 0 → runCommand 0x40000000#32 s = .next t →
    runCommand 0x50BF022F#32 t = .next { t with response := some ⟨0, 0⟩ }

/-- RDPIX answers on every cell of a finished raster, and changes nothing but the response. -/
def Obligations.RdpixCompletes : Prop :=
  ∀ col row s, s.status = .done → col ≤ 559 → row ≤ 191 →
    exec (.rdpix col row) s =
      .next { s with response := some ⟨if rasterRead s.raster row col then 1 else 0, 0⟩ }

/-! ## Frame sequencer (43_frame_decoder.md) -/

/-- R63: one pass step on a hole, on a valid byte, and where it does not run. -/
def Obligations.PassStepEffect : Prop :=
  ∀ (s : State) (m : Memory), s.fb = some m →
    (s.status = .running → s.cursor.toNat ≤ 8191 →
      (s.cursor + 1).toNat = s.cursor.toNat + 1 ∧
      (inverse s.cursor.toNat = none → passStep s = { s with cursor := s.cursor + 1 }) ∧
      ∀ x y, inverse s.cursor.toNat = some (x, y) →
        passStep s = { s with
          raster := writeGroup s.raster y x (Memory.read m s.cursor.toNat)
          cursor := s.cursor + 1 }) ∧
    (¬(s.status = .running ∧ s.cursor.toNat ≤ 8191) → passStep s = s)

/-- R64: the pass runs 8192 steps, CURSOR counting them, and ends in DONE. -/
def Obligations.PassRunsEveryAddress : Prop :=
  ∀ (s : State) (m : Memory), s.fb = some m → s.status = .running → s.cursor = 0 →
    (∀ n, n ≤ 8192 → (passSteps n s).cursor.toNat = n ∧ (passSteps n s).status = .running) ∧
    (∀ n, n < 8192 → passSteps (n + 1) s = passStep (passSteps n s)) ∧
    pass s = { s with
      raster := (List.range 8192).foldl (fun r a => decodeByte m a r) s.raster
      cursor := 8192
      status := .done }

/-- R64, R25 of 20_memory.md: DFRAME as one step, and the pass as 8193 internal steps, leave the same state. -/
def Obligations.AtomicFrameIsItsSteps : Prop :=
  ∀ s : State, s.inbuf.length = 8192 → resetArrives s = false →
    Host.Core.run core 8193 (startFrame s) = exec .dframe s

/-- R65, R66: DFRAME as a command word. -/
def Obligations.DframeCommandWord : Prop :=
  ∀ (w : Word) (s : State), slice w 31 28 = 4 →
    (slice w 27 0 ≠ 0 → runCommand w s = .next { s with response := some ⟨0, 1⟩ }) ∧
    (slice w 27 0 = 0 → s.inbuf.length ≠ 8192 →
      runCommand w s = .next { s with status := .sizeError, response := some ⟨0, 3⟩ } ∧
      ∀ col row, exec (.rdpix col row) { s with status := .sizeError, response := some ⟨0, 3⟩ } =
        .next { s with status := .sizeError, response := some ⟨0, 4⟩ }) ∧
    (slice w 27 0 = 0 → s.inbuf.length = 8192 →
      runCommand w s = .next { s with
        fb := some (Memory.ofBytes s.inbuf)
        raster := rasterAfter (Memory.ofBytes s.inbuf) 8192
        cursor := 8192
        status := .done
        response := some ⟨0, 0⟩ } ∧
      (∀ (a : Nat) (h : a < s.inbuf.length), Memory.read (Memory.ofBytes s.inbuf) a = s.inbuf[a]) ∧
      (s.inbuf = List.replicate 8192 0 → ∀ row col, row ≤ 191 → col ≤ 559 →
        rasterRead (rasterAfter (Memory.ofBytes s.inbuf) 8192) row col = false))

/-- DFRAME answers on every buffer of 8192 bytes: the latch, the raster of the closed form, CURSOR and STATE; the host's
side of the port is left alone. -/
def Obligations.DframeCompletes : Prop :=
  ∀ s : State, s.inbuf.length = 8192 →
    ∃ t, exec .dframe s = .next t ∧
      t.fb = some (Memory.ofBytes s.inbuf) ∧ t.status = .done ∧ t.cursor.toNat = 8192 ∧
      t.response = some ⟨0, 0⟩ ∧ t.pending = s.pending ∧ t.inbuf = s.inbuf ∧ Raster.wf t.raster = true ∧
      ∀ row col, row ≤ 191 → col ≤ 559 →
        rasterRead t.raster row col = closedPixel (Memory.ofBytes s.inbuf) row col

/-- R67: the closed form of the raster that a successful DFRAME leaves. -/
def Obligations.RasterClosedForm : Prop :=
  ∀ (s t : State) (m : Memory), s.inbuf.length = 8192 → exec .dframe s = .next t → t.fb = some m →
    ∀ y k j, y ≤ 191 → k ≤ 39 → j ≤ 13 →
      ((lineByte m y k).getLsbD 7 = false →
        rasterRead t.raster y (14 * k + j) = (lineByte m y k).getLsbD (j / 2)) ∧
      ((lineByte m y k).getLsbD 7 = true → 1 ≤ j →
        rasterRead t.raster y (14 * k + j) = (lineByte m y k).getLsbD ((j - 1) / 2)) ∧
      ((lineByte m y k).getLsbD 7 = true → j = 0 →
        rasterRead t.raster y (14 * k + j) =
          if 1 ≤ k ∧ (lineByte m y (k - 1)).getLsbD 7 = true then (lineByte m y (k - 1)).getLsbD 6 else false)

/-- R68: which cells are written twice, in which order, and whose value stays. -/
def Obligations.OverlapLaterByteWins : Prop :=
  ∀ m : Memory,
    (∀ k y, k ≤ 38 → y ≤ 191 → shiftBit (lineByte m y k) = true → shiftBit (lineByte m y (k + 1)) = false →
      writesTo y (14 * (k + 1)) (passWrites m) =
        [⟨y, 14 * (k + 1), sample (lineByte m y k) 6⟩, ⟨y, 14 * (k + 1), sample (lineByte m y (k + 1)) 0⟩] ∧
      rasterRead (rasterAfter m 8192) y (14 * (k + 1)) = sample (lineByte m y (k + 1)) 0) ∧
    (∀ y c, (writesTo y c (passWrites m)).length ≥ 2 →
      ∃ k, k ≤ 38 ∧ y ≤ 191 ∧ c = 14 * (k + 1) ∧ shiftBit (lineByte m y k) = true ∧
        shiftBit (lineByte m y (k + 1)) = false) ∧
    ∀ k y, k ≤ 38 → y ≤ 191 →
      forward (7 * (k + 1)) y = forward (7 * k) y + 1 ∧
      (lineByte m y k = 0xC0 → lineByte m y (k + 1) = 0x00 →
        rasterRead (rasterAfter m 8192) y (14 * k + 13) = true ∧
        rasterRead (rasterAfter m 8192) y (14 * k + 14) = false) ∧
      (lineByte m y k = 0xC0 → lineByte m y (k + 1) = 0x80 →
        rasterRead (rasterAfter m 8192) y (14 * k + 14) = true)

/-- R69: the cells no pass step writes, the discarded writes, and the all-0xFF frame. -/
def Obligations.UnwrittenAndDiscarded : Prop :=
  ∀ m : Memory,
    (∀ k y, k ≤ 39 → y ≤ 191 →
      (writesTo y (14 * k) (passWrites m) = [] ↔
        shiftBit (lineByte m y k) = true ∧ (k = 0 ∨ shiftBit (lineByte m y (k - 1)) = false)) ∧
      (writesTo y (14 * k) (passWrites m) = [] → rasterRead (rasterAfter m 8192) y (14 * k) = false)) ∧
    (∀ y c, y ≤ 191 → c ≤ 559 → c % 14 ≠ 0 → writesTo y c (passWrites m) ≠ []) ∧
    (∀ y, y ≤ 191 → (writesTo y 560 (passWrites m) ≠ [] ↔ shiftBit (lineByte m y 39) = true)) ∧
    (∀ w ∈ passWrites m, w.row ≤ 191 ∧ w.col ≤ 560) ∧
    (∀ (r : Raster) (y : Nat) (p : Pixel), rasterWrite r y 560 p = r) ∧
    ((∀ a, a < 8192 → Memory.read m a = 0xFF) → ∀ y c, y ≤ 191 → c ≤ 559 →
      rasterRead (rasterAfter m 8192) y c = decide (c ≠ 0))

/-- R70: the raster depends on the 7680 valid bytes and on nothing else. -/
def Obligations.HolesDoNotMatter : Prop :=
  ∀ (s t s' t' : State), s.inbuf.length = 8192 → t.inbuf.length = 8192 →
    (∀ a, isValidAddress a = true → s.inbuf[a]? = t.inbuf[a]?) →
    exec .dframe s = .next s' → exec .dframe t = .next t' → s'.raster = t'.raster

/-- R71: RDSTAT as a command word; it never answers 3 at the port; its example. -/
def Obligations.RdstatCommandWord : Prop :=
  (∀ (w : Word) (s : State), slice w 31 28 = 6 →
    runCommand w s =
      if slice w 27 0 ≠ 0 then .next { s with response := some ⟨0, 1⟩ }
      else .next { s with response := some ⟨BitVec.ofNat 32 s.status.code, 0⟩ }) ∧
  (∀ s t r, AtPort s → exec .rdstat s = .next t → t.response = some r → r.resp ≠ 3) ∧
  (∀ t, runCommand 0x60000000#32 State.reset = .next t → t.response = some ⟨0, 0⟩) ∧
  ∀ s t : State, s.inbuf.length = 4096 → runCommand 0x40000000#32 s = .next t →
    runCommand 0x60000000#32 t = .next { t with response := some ⟨2, 0⟩ }

/-- RDSTAT answers in every state, and changes nothing but the response. -/
def Obligations.RdstatCompletes : Prop :=
  ∀ s : State, ∃ r : Word, exec .rdstat s = .next { s with response := some ⟨r, 0⟩ } ∧
    (s.status = .idle → r = 0) ∧ (s.status = .done → r = 1) ∧ (s.status = .sizeError → r = 2) ∧
    (s.status = .running → r = 3)

/-! ## Errors (60_exceptions.md) -/

/-- R72, R74: when each error code is answered; the conditions exclude each other in the order of R74. -/
def Obligations.ErrorCauses : Prop :=
  ∀ (w : Word) (s t : State) (r : Response), runCommand w s = .next t → t.response = some r →
    (r.err = 1 ↔ ∀ row ∈ opcodeTable, row.holds w = false) ∧
    (r.err = 2 ↔
      (∃ x y, decode w = .instr (.fwd x y) ∧ (x > 279 ∨ y > 191)) ∨
      ∃ col row, decode w = .instr (.rdpix col row) ∧ s.status = .done ∧ (col > 559 ∨ row > 191)) ∧
    (r.err = 3 ↔ decode w = .instr .dframe ∧ s.inbuf.length ≠ 8192) ∧
    (r.err = 4 ↔ ∃ col row, decode w = .instr (.rdpix col row) ∧ s.status ≠ .done) ∧
    r.err.toNat ≤ 4 ∧ (r.err ≠ 0 → r.resp = 0)

/-- R73: a command that ends with an error changes no state, but for SIZE, which sets STATE; a DFRAME that passes its
checks cannot fail. -/
def Obligations.ErrorsChangeNothing : Prop :=
  (∀ (w : Word) (s t : State) (r : Response), runCommand w s = .next t → t.response = some r → r.err ≠ 0 →
    (r.err ≠ 3 → t = { s with response := some r }) ∧
    (r.err = 3 → t = { s with status := .sizeError, response := some r })) ∧
  ∀ s t : State, s.inbuf.length = 8192 → runCommand 0x40000000#32 s = .next t → t.response = some ⟨0, 0⟩

/-- R75: the errors each command can raise. -/
def Obligations.ErrorsPerCommand : Prop :=
  ∀ (w : Word) (s t : State) (r : Response), runCommand w s = .next t → t.response = some r →
    (slice w 31 28 = 1 → r.err ∈ [0, 1, 2]) ∧
    (slice w 31 28 = 2 → r.err ∈ [0, 1]) ∧
    (slice w 31 28 = 3 → r.err ∈ [0, 1]) ∧
    (slice w 31 28 = 4 → r.err ∈ [0, 1, 3]) ∧
    (slice w 31 28 = 5 → r.err ∈ [0, 1, 4, 2]) ∧
    (slice w 31 28 = 6 → r.err ∈ [0, 1])

/-! ## Reset, boot and hazards (70_reset_and_hazards.md) -/

/-- R81: the state after reset, and that it waits for the first command. -/
def Obligations.ResetValues : Prop :=
  State.reset.fb = none ∧ (∀ row col, rasterRead State.reset.raster row col = false) ∧
  State.reset.status = .idle ∧ State.reset.cursor = 0 ∧ step State.reset = .next State.reset

/-- R82: a reset between commands, in the middle of a command or in the middle of a pass leaves the state of R81 and
gives no response. -/
def Obligations.ResetAtAnyTime : Prop :=
  (∀ (s : State) (rest : List HostEvent), s.pending = .reset :: rest →
    step s = .next { State.reset with pending := rest }) ∧
  (∀ (s : State) (w : Word) (b : List Byte) (n : Nat) (rest : List HostEvent), AtPort s →
    s.pending = .resetDuring w b n :: rest → step s = .next { State.reset with pending := rest }) ∧
  ∀ (col row : Nat) (rest : List HostEvent),
    exec (.rdpix col row) { State.reset with pending := rest } =
      .next { State.reset with pending := rest, response := some ⟨0, 4⟩ }

/-- R83: until a DFRAME with an 8192-byte buffer, whatever else the host does after reset, RDPIX answers NOT_READY. -/
def Obligations.NoRasterBeforeAFrame : Prop :=
  ∀ (events : List HostEvent) (n : Nat) (t : State),
    (∀ w b, .command w b ∈ events → ¬(w = 0x40000000#32 ∧ b.length = 8192)) →
    Host.Core.run core n { State.reset with pending := events } = .next t →
    ∀ col row, exec (.rdpix col row) t = .next { t with response := some ⟨0, 4⟩ }

/-- R85: an RDPIX right after a DFRAME sees the finished raster, pixel for pixel. -/
def Obligations.ReadAfterFrameSeesClosedForm : Prop :=
  ∀ (s : State) (buffer : List Byte) (rest : List HostEvent) (col row : Nat), AtPort s → buffer.length = 8192 →
    col ≤ 559 → row ≤ 191 →
    s.pending = .command 0x40000000#32 buffer :: .command (encode (.rdpix col row)) [] :: rest →
    ∃ t, Host.Core.run core 2 s = .next t ∧ t.pending = rest ∧
      t.response = some ⟨if closedPixel (Memory.ofBytes buffer) row col then 1 else 0, 0⟩

/-- R84: any order of the bytes that keeps each scan line's bytes from left to right leaves the same raster. -/
def Obligations.PassOrderFreedom : Prop :=
  ∀ (m : Memory) (order : List Nat), order.Perm (List.range 8192) →
    (∀ y k, y ≤ 191 → k ≤ 38 → order.idxOf (forward (7 * k) y) < order.idxOf (forward (7 * (k + 1)) y)) →
    order.foldl (fun r a => decodeByte m a r) rasterClear = rasterAfter m 8192

/-- R87: the responses of FWD, INV and EXPAND depend on the command word alone. -/
def Obligations.PureCommandsIgnoreState : Prop :=
  ∀ (w : Word) (s t : State), slice w 31 28 = 1 ∨ slice w 31 28 = 2 ∨ slice w 31 28 = 3 →
    ∃ r, runCommand w s = .next { s with response := some r } ∧ runCommand w t = .next { t with response := some r }

/-! ## The machine as a whole -/

/-- A pending legal word is run by its meaning, once its event is taken and its buffer is on the data port (R35); and
`withFetchWord` places exactly such a word. -/
def Obligations.StepRunsDecodedCommand : Prop :=
  (∀ (s : State) (w : Word) (buffer : List Byte) (rest : List HostEvent) (i : Instr), AtPort s →
    s.pending = .command w buffer :: rest → decode w = .instr i →
    step s = exec i { s with pending := rest, inbuf := buffer }) ∧
  ∀ (s : State) (nbits w : Nat) (i : Instr), AtPort s → decodeTableWord nbits w = some i →
    step (s.withFetchWord nbits w) =
      exec i { s with inbuf := if i = .dframe then List.replicate 8192 0 else [] }

/-- The invariant holds after reset. -/
def Obligations.ResetMeetsInvariant : Prop := Inv State.reset

/-- Every step keeps the invariant, in the middle of a pass too. -/
def Obligations.StepKeepsInvariant : Prop := ∀ s t : State, Inv s → step s = .next t → Inv t

/-- From a state that meets the invariant the machine never stops: every step answers a next state. -/
def Obligations.InvariantStatesNeverStop : Prop := ∀ s : State, Inv s → ∃ t, step s = .next t

/-- In every state at the port that meets the invariant and has a frame, the raster is the closed form of FB: RASTER is a
function of FB alone (R67, R70). -/
def Obligations.InvariantRasterIsClosedForm : Prop :=
  ∀ (s : State) (m : Memory), Inv s → AtPort s → s.fb = some m →
    ∀ row col, row ≤ 191 → col ≤ 559 → rasterRead s.raster row col = closedPixel m row col

/-- R83: every step keeps the states in which no raster is readable and no whole frame is pending, and RDPIX answers
NOT_READY in each of them (log 1 for the pending list). -/
def Obligations.NotReadyIsKeptUntilAFrame : Prop :=
  (∀ s t : State, NoFrameYet s → step s = .next t → NoFrameYet t) ∧
  ∀ (s : State) (col row : Nat), NoFrameYet s → exec (.rdpix col row) s = .next { s with response := some ⟨0, 4⟩ }
end

