-- ==== Sys2Proof/Laws/State.lean ====
section
/-! SUPPORT. One lemma per field of State for each named update, so that no proof unfolds a record update. -/
namespace Sys2Proof.Machine

/-! ## respond -/

@[simp] theorem respond_fb (s : State) (r : Word) (e : Err) : (respond s r e).fb = s.fb := rfl
@[simp] theorem respond_raster (s : State) (r : Word) (e : Err) : (respond s r e).raster = s.raster := rfl
@[simp] theorem respond_status (s : State) (r : Word) (e : Err) : (respond s r e).status = s.status := rfl
@[simp] theorem respond_cursor (s : State) (r : Word) (e : Err) : (respond s r e).cursor = s.cursor := rfl
@[simp] theorem respond_pending (s : State) (r : Word) (e : Err) : (respond s r e).pending = s.pending := rfl
@[simp] theorem respond_inbuf (s : State) (r : Word) (e : Err) : (respond s r e).inbuf = s.inbuf := rfl
@[simp] theorem respond_response (s : State) (r : Word) (e : Err) : (respond s r e).response = some ⟨r, e.code⟩ := rfl

/-! ## raiseError -/

@[simp] theorem raiseError_fb (s : State) (e : Err) : (raiseError s e).fb = s.fb := rfl
@[simp] theorem raiseError_raster (s : State) (e : Err) : (raiseError s e).raster = s.raster := rfl
@[simp] theorem raiseError_status (s : State) (e : Err) : (raiseError s e).status = s.status := rfl
@[simp] theorem raiseError_cursor (s : State) (e : Err) : (raiseError s e).cursor = s.cursor := rfl
@[simp] theorem raiseError_pending (s : State) (e : Err) : (raiseError s e).pending = s.pending := rfl
@[simp] theorem raiseError_inbuf (s : State) (e : Err) : (raiseError s e).inbuf = s.inbuf := rfl
@[simp] theorem raiseError_response (s : State) (e : Err) : (raiseError s e).response = some ⟨0, e.code⟩ := rfl

/-! ## illegalCommand -/

@[simp] theorem illegalCommand_fb (s : State) : (illegalCommand s).fb = s.fb := rfl
@[simp] theorem illegalCommand_raster (s : State) : (illegalCommand s).raster = s.raster := rfl
@[simp] theorem illegalCommand_status (s : State) : (illegalCommand s).status = s.status := rfl
@[simp] theorem illegalCommand_cursor (s : State) : (illegalCommand s).cursor = s.cursor := rfl
@[simp] theorem illegalCommand_pending (s : State) : (illegalCommand s).pending = s.pending := rfl
@[simp] theorem illegalCommand_inbuf (s : State) : (illegalCommand s).inbuf = s.inbuf := rfl
@[simp] theorem illegalCommand_response (s : State) : (illegalCommand s).response = some ⟨0, 1⟩ := rfl

/-! ## waitForHost -/

@[simp] theorem waitForHost_fb (s : State) : (waitForHost s).fb = s.fb := rfl
@[simp] theorem waitForHost_raster (s : State) : (waitForHost s).raster = s.raster := rfl
@[simp] theorem waitForHost_status (s : State) : (waitForHost s).status = s.status := rfl
@[simp] theorem waitForHost_cursor (s : State) : (waitForHost s).cursor = s.cursor := rfl
@[simp] theorem waitForHost_pending (s : State) : (waitForHost s).pending = s.pending := rfl
@[simp] theorem waitForHost_inbuf (s : State) : (waitForHost s).inbuf = s.inbuf := rfl
@[simp] theorem waitForHost_response (s : State) : (waitForHost s).response = none := rfl

/-! ## acceptCommand -/

@[simp] theorem acceptCommand_fb (s : State) (rest : List HostEvent) (b : List Byte) : (acceptCommand s rest b).fb = s.fb := rfl
@[simp] theorem acceptCommand_raster (s : State) (rest : List HostEvent) (b : List Byte) : (acceptCommand s rest b).raster = s.raster := rfl
@[simp] theorem acceptCommand_status (s : State) (rest : List HostEvent) (b : List Byte) : (acceptCommand s rest b).status = s.status := rfl
@[simp] theorem acceptCommand_cursor (s : State) (rest : List HostEvent) (b : List Byte) : (acceptCommand s rest b).cursor = s.cursor := rfl
@[simp] theorem acceptCommand_pending (s : State) (rest : List HostEvent) (b : List Byte) : (acceptCommand s rest b).pending = rest := rfl
@[simp] theorem acceptCommand_inbuf (s : State) (rest : List HostEvent) (b : List Byte) : (acceptCommand s rest b).inbuf = b := rfl
@[simp] theorem acceptCommand_response (s : State) (rest : List HostEvent) (b : List Byte) : (acceptCommand s rest b).response = s.response := rfl

/-! ## resetBlock -/

@[simp] theorem resetBlock_fb (s : State) : (resetBlock s).fb = none := rfl
@[simp] theorem resetBlock_raster (s : State) : (resetBlock s).raster = rasterClear := rfl
@[simp] theorem resetBlock_status (s : State) : (resetBlock s).status = .idle := rfl
@[simp] theorem resetBlock_cursor (s : State) : (resetBlock s).cursor = 0 := rfl
@[simp] theorem resetBlock_pending (s : State) : (resetBlock s).pending = s.pending := rfl
@[simp] theorem resetBlock_inbuf (s : State) : (resetBlock s).inbuf = [] := rfl
@[simp] theorem resetBlock_response (s : State) : (resetBlock s).response = none := rfl

/-! ## startFrame -/

@[simp] theorem startFrame_fb (s : State) : (startFrame s).fb = some (Memory.ofBytes s.inbuf) := rfl
@[simp] theorem startFrame_raster (s : State) : (startFrame s).raster = rasterClear := rfl
@[simp] theorem startFrame_status (s : State) : (startFrame s).status = .running := rfl
@[simp] theorem startFrame_cursor (s : State) : (startFrame s).cursor = 0 := rfl
@[simp] theorem startFrame_pending (s : State) : (startFrame s).pending = s.pending := rfl
@[simp] theorem startFrame_inbuf (s : State) : (startFrame s).inbuf = s.inbuf := rfl
@[simp] theorem startFrame_response (s : State) : (startFrame s).response = s.response := rfl

/-! ## rejectFrame -/

@[simp] theorem rejectFrame_fb (s : State) : (rejectFrame s).fb = s.fb := rfl
@[simp] theorem rejectFrame_raster (s : State) : (rejectFrame s).raster = s.raster := rfl
@[simp] theorem rejectFrame_status (s : State) : (rejectFrame s).status = .sizeError := rfl
@[simp] theorem rejectFrame_cursor (s : State) : (rejectFrame s).cursor = s.cursor := rfl
@[simp] theorem rejectFrame_pending (s : State) : (rejectFrame s).pending = s.pending := rfl
@[simp] theorem rejectFrame_inbuf (s : State) : (rejectFrame s).inbuf = s.inbuf := rfl
@[simp] theorem rejectFrame_response (s : State) : (rejectFrame s).response = s.response := rfl

/-! ## finishPass -/

@[simp] theorem finishPass_fb (s : State) : (finishPass s).fb = s.fb := rfl
@[simp] theorem finishPass_raster (s : State) : (finishPass s).raster = s.raster := rfl
@[simp] theorem finishPass_status (s : State) : (finishPass s).status = .done := rfl
@[simp] theorem finishPass_cursor (s : State) : (finishPass s).cursor = s.cursor := rfl
@[simp] theorem finishPass_pending (s : State) : (finishPass s).pending = s.pending := rfl
@[simp] theorem finishPass_inbuf (s : State) : (finishPass s).inbuf = s.inbuf := rfl
@[simp] theorem finishPass_response (s : State) : (finishPass s).response = s.response := rfl

end Sys2Proof.Machine
end

