-- ==== Sys2Proof/Laws/Decode.lean ====
section
/-! SUPPORT. What the decoder answers, said once: for every command the words that stand for it. -/
namespace Sys2Proof.Machine

theorem slice_eq (w : Word) (hi lo : Nat) : slice w hi lo = w.toNat / 2 ^ lo % 2 ^ (hi - lo + 1) := rfl

/-- Every decoded command comes from a word of this form: its OP, its fields, and zeros in the reserved bits. -/
theorem decode_cases {w : Word} {i : Instr} (h : decode w = .instr i) :
    (i = .fwd (slice w 8 0) (slice w 23 16) ∧ slice w 31 28 = 1 ∧ slice w 27 24 = 0 ∧ slice w 15 9 = 0) ∨
    (i = .inv (slice w 15 0) ∧ slice w 31 28 = 2 ∧ slice w 27 16 = 0) ∨
    (i = .expand (BitVec.ofNat 8 (slice w 7 0)) ∧ slice w 31 28 = 3 ∧ slice w 27 8 = 0) ∨
    (i = .dframe ∧ slice w 31 28 = 4 ∧ slice w 27 0 = 0) ∨
    (i = .rdpix (slice w 9 0) (slice w 23 16) ∧ slice w 31 28 = 5 ∧ slice w 27 24 = 0 ∧ slice w 15 10 = 0) ∨
    (i = .rdstat ∧ slice w 31 28 = 6 ∧ slice w 27 0 = 0) := by
  unfold decode at h
  split at h <;> (try split at h) <;> simp_all

/-! ## The rows of the opcode table as fields (R37, R38) -/

theorem slice_and (v m : Word) (hi lo : Nat) : slice (v &&& m) hi lo = slice v hi lo &&& slice m hi lo := by
  simp only [slice_eq, BitVec.toNat_and, Nat.and_div_two_pow, Nat.and_mod_two_pow]

/-- A slice under a mask of ones is the slice. -/
theorem slice_and_ones {v m : Word} {hi lo : Nat} (h : slice m hi lo = 2 ^ (hi - lo + 1) - 1) :
    slice (v &&& m) hi lo = slice v hi lo := by
  rw [slice_and, h, Nat.and_two_pow_sub_one_eq_mod, slice_eq, Nat.mod_mod]

/-- A slice under a mask of zeros is 0. -/
theorem slice_and_zeros {v m : Word} {hi lo : Nat} (h : slice m hi lo = 0) : slice (v &&& m) hi lo = 0 := by
  rw [slice_and, h, Nat.and_zero]

theorem OpcodeRow.holds_iff (r : OpcodeRow) (w : Word) : r.holds w = true ↔ w &&& r.mask = r.pattern := by
  simp [OpcodeRow.holds]

theorem fwd_row_holds_iff (w : Word) :
    OpcodeRow.fwd.holds w = true ↔ slice w 31 28 = 1 ∧ slice w 27 24 = 0 ∧ slice w 15 9 = 0 := by
  rw [OpcodeRow.holds_iff]
  have h0 := slice_and_ones (v := w) (m := OpcodeRow.fwd.mask) (hi := 31) (lo := 28) (by decide)
  have h1 := slice_and_ones (v := w) (m := OpcodeRow.fwd.mask) (hi := 27) (lo := 24) (by decide)
  have h2 := slice_and_zeros (v := w) (m := OpcodeRow.fwd.mask) (hi := 23) (lo := 16) (by decide)
  have h3 := slice_and_ones (v := w) (m := OpcodeRow.fwd.mask) (hi := 15) (lo := 9) (by decide)
  have h4 := slice_and_zeros (v := w) (m := OpcodeRow.fwd.mask) (hi := 8) (lo := 0) (by decide)
  rw [← h0, ← h1, ← h3]
  constructor
  · intro h; rw [h]; decide
  · intro h
    apply BitVec.eq_of_toNat_eq
    simp only [slice_eq] at *
    have := (w &&& OpcodeRow.fwd.mask).isLt
    show _ = 0x10000000
    omega

theorem inv_row_holds_iff (w : Word) :
    OpcodeRow.inv.holds w = true ↔ slice w 31 28 = 2 ∧ slice w 27 16 = 0 := by
  rw [OpcodeRow.holds_iff]
  have h0 := slice_and_ones (v := w) (m := OpcodeRow.inv.mask) (hi := 31) (lo := 28) (by decide)
  have h1 := slice_and_ones (v := w) (m := OpcodeRow.inv.mask) (hi := 27) (lo := 16) (by decide)
  have h2 := slice_and_zeros (v := w) (m := OpcodeRow.inv.mask) (hi := 15) (lo := 0) (by decide)
  rw [← h0, ← h1]
  constructor
  · intro h; rw [h]; decide
  · intro h
    apply BitVec.eq_of_toNat_eq
    simp only [slice_eq] at *
    have := (w &&& OpcodeRow.inv.mask).isLt
    show _ = 0x20000000
    omega

theorem expand_row_holds_iff (w : Word) :
    OpcodeRow.expand.holds w = true ↔ slice w 31 28 = 3 ∧ slice w 27 8 = 0 := by
  rw [OpcodeRow.holds_iff]
  have h0 := slice_and_ones (v := w) (m := OpcodeRow.expand.mask) (hi := 31) (lo := 28) (by decide)
  have h1 := slice_and_ones (v := w) (m := OpcodeRow.expand.mask) (hi := 27) (lo := 8) (by decide)
  have h2 := slice_and_zeros (v := w) (m := OpcodeRow.expand.mask) (hi := 7) (lo := 0) (by decide)
  rw [← h0, ← h1]
  constructor
  · intro h; rw [h]; decide
  · intro h
    apply BitVec.eq_of_toNat_eq
    simp only [slice_eq] at *
    have := (w &&& OpcodeRow.expand.mask).isLt
    show _ = 0x30000000
    omega

theorem dframe_row_holds_iff (w : Word) :
    OpcodeRow.dframe.holds w = true ↔ slice w 31 28 = 4 ∧ slice w 27 0 = 0 := by
  rw [OpcodeRow.holds_iff]
  have h0 := slice_and_ones (v := w) (m := OpcodeRow.dframe.mask) (hi := 31) (lo := 28) (by decide)
  have h1 := slice_and_ones (v := w) (m := OpcodeRow.dframe.mask) (hi := 27) (lo := 0) (by decide)
  rw [← h0, ← h1]
  constructor
  · intro h; rw [h]; decide
  · intro h
    apply BitVec.eq_of_toNat_eq
    simp only [slice_eq] at *
    have := (w &&& OpcodeRow.dframe.mask).isLt
    show _ = 0x40000000
    omega

theorem rdpix_row_holds_iff (w : Word) :
    OpcodeRow.rdpix.holds w = true ↔ slice w 31 28 = 5 ∧ slice w 27 24 = 0 ∧ slice w 15 10 = 0 := by
  rw [OpcodeRow.holds_iff]
  have h0 := slice_and_ones (v := w) (m := OpcodeRow.rdpix.mask) (hi := 31) (lo := 28) (by decide)
  have h1 := slice_and_ones (v := w) (m := OpcodeRow.rdpix.mask) (hi := 27) (lo := 24) (by decide)
  have h2 := slice_and_zeros (v := w) (m := OpcodeRow.rdpix.mask) (hi := 23) (lo := 16) (by decide)
  have h3 := slice_and_ones (v := w) (m := OpcodeRow.rdpix.mask) (hi := 15) (lo := 10) (by decide)
  have h4 := slice_and_zeros (v := w) (m := OpcodeRow.rdpix.mask) (hi := 9) (lo := 0) (by decide)
  rw [← h0, ← h1, ← h3]
  constructor
  · intro h; rw [h]; decide
  · intro h
    apply BitVec.eq_of_toNat_eq
    simp only [slice_eq] at *
    have := (w &&& OpcodeRow.rdpix.mask).isLt
    show _ = 0x50000000
    omega

theorem rdstat_row_holds_iff (w : Word) :
    OpcodeRow.rdstat.holds w = true ↔ slice w 31 28 = 6 ∧ slice w 27 0 = 0 := by
  rw [OpcodeRow.holds_iff]
  have h0 := slice_and_ones (v := w) (m := OpcodeRow.rdstat.mask) (hi := 31) (lo := 28) (by decide)
  have h1 := slice_and_ones (v := w) (m := OpcodeRow.rdstat.mask) (hi := 27) (lo := 0) (by decide)
  rw [← h0, ← h1]
  constructor
  · intro h; rw [h]; decide
  · intro h
    apply BitVec.eq_of_toNat_eq
    simp only [slice_eq] at *
    have := (w &&& OpcodeRow.rdstat.mask).isLt
    show _ = 0x60000000
    omega

/-- The word of DFRAME is the only one that decodes to it. -/
theorem decode_eq_dframe_iff (w : Word) : decode w = .instr .dframe ↔ w = 0x40000000#32 := by
  constructor
  · intro h
    have := decode_cases h
    simp only [slice_eq, reduceCtorEq, false_and, false_or, or_false, true_and] at this
    apply BitVec.eq_of_toNat_eq
    simp only [BitVec.toNat_ofNat]
    omega
  · rintro rfl; decide

/-! ## The encoder -/

theorem encode_toNat {i : Instr} (h : i.wf = true) :
    (encode i).toNat =
      match i with
      | .fwd x y => 0x1 * 2 ^ 28 + y * 2 ^ 16 + x
      | .inv a => 0x2 * 2 ^ 28 + a
      | .expand v => 0x3 * 2 ^ 28 + v.toNat
      | .dframe => 0x4 * 2 ^ 28
      | .rdpix col row => 0x5 * 2 ^ 28 + row * 2 ^ 16 + col
      | .rdstat => 0x6 * 2 ^ 28 := by
  cases i <;> simp only [Instr.wf, Bool.and_eq_true, decide_eq_true_eq] at h <;>
    simp only [encode, BitVec.toNat_ofNat] <;> omega

end Sys2Proof.Machine
end

