-- ==== Sys2Proof/Laws/Mapper.lean ====
section
/-! SUPPORT. What the address decoder answers, said once: the coordinate of an address and the address of a byte
coordinate. -/
namespace Sys2Proof.Machine

theorem forward_eq (x y : Nat) : forward x y = 0x28 * (y / 64) + 0x80 * (y / 8 % 8) + 0x400 * (y % 8) + x / 7 := rfl

theorem inverse_eq_none_iff (a : Nat) : inverse a = none ↔ a > 0x1FFF ∨ a % 0x80 ≥ 0x78 := by
  unfold inverse
  split <;> simp_all

/-- A scan line is its group, row and offset (R42). -/
theorem line_split {y : Nat} (h : y ≤ 191) : ∃ g r o, g ≤ 2 ∧ r ≤ 7 ∧ o ≤ 7 ∧ y = 64 * g + 8 * r + o :=
  ⟨y / 64, y / 8 % 8, y % 8, by omega, by omega, by omega, by omega⟩

/-- The forward map of a byte coordinate, by its group, row and offset. -/
theorem forward_split {g r o k : Nat} (hr : r ≤ 7) (ho : o ≤ 7) :
    forward (7 * k) (64 * g + 8 * r + o) = 0x400 * o + 0x80 * r + (0x28 * g + k) := by
  rw [forward_eq, show (64 * g + 8 * r + o) / 64 = g by omega, show (64 * g + 8 * r + o) / 8 % 8 = r by omega,
    show (64 * g + 8 * r + o) % 8 = o by omega, show 7 * k / 7 = k by omega]
  omega

/-- The inverse map of an address, by its offset, row and group. -/
theorem inverse_split {g r o k : Nat} (hg : g ≤ 2) (hr : r ≤ 7) (ho : o ≤ 7) (hk : k ≤ 39) :
    inverse (0x400 * o + 0x80 * r + (0x28 * g + k)) = some (7 * k, 64 * g + 8 * r + o) := by
  have hm : (0x400 * o + 0x80 * r + (0x28 * g + k)) % 0x80 = 0x28 * g + k := by omega
  have ho' : (0x400 * o + 0x80 * r + (0x28 * g + k)) / 0x400 = o := by omega
  have hg' : (0x28 * g + k) / 0x28 = g := by omega
  have hk' : (0x28 * g + k) % 0x28 = k := by omega
  have hr' : (0x400 * o + 0x80 * r + (0x28 * g + k) - 0x28 * g - 0x400 * o) / 0x80 = r := by omega
  simp only [inverse, hm, ho', hg', hk', hr']
  rw [if_neg (by omega)]
  simp only [Option.some.injEq, Prod.mk.injEq]
  omega

/-- An address of FB outside the holes is an offset, a row, a group and a byte column (R30). -/
theorem address_split {a : Nat} (h : a ≤ 0x1FFF) (h' : a % 0x80 < 0x78) :
    ∃ g r o k, g ≤ 2 ∧ r ≤ 7 ∧ o ≤ 7 ∧ k ≤ 39 ∧ a = 0x400 * o + 0x80 * r + (0x28 * g + k) :=
  ⟨a % 0x80 / 0x28, a / 0x80 % 8, a / 0x400, a % 0x80 % 0x28, by omega, by omega, by omega, by omega, by omega⟩

/-- The field OFFSET of an address (R30). -/
theorem offset_field {g r o k : Nat} (hg : g ≤ 2) (hr : r ≤ 7) (ho : o ≤ 7) (hk : k ≤ 39) :
    bits (0x400 * o + 0x80 * r + (0x28 * g + k)) 12 10 = o := by
  have : (0x400 * o + 0x80 * r + (0x28 * g + k)) / 2 ^ 10 = o := by omega
  rw [bits, this]; omega

/-- The field ROW of an address (R30). -/
theorem row_field {g r o k : Nat} (hg : g ≤ 2) (hr : r ≤ 7) (hk : k ≤ 39) :
    bits (0x400 * o + 0x80 * r + (0x28 * g + k)) 9 7 = r := by
  have : (0x400 * o + 0x80 * r + (0x28 * g + k)) / 2 ^ 7 = 8 * o + r := by omega
  rw [bits, this]; omega

/-- The field M of an address (R30). -/
theorem m_field {g r o k : Nat} (hg : g ≤ 2) (hk : k ≤ 39) :
    bits (0x400 * o + 0x80 * r + (0x28 * g + k)) 6 0 = 0x28 * g + k := by
  simp only [bits]; omega

/-- An address has a coordinate exactly when it is the address of a byte column, which is then that coordinate. -/
theorem inverse_eq_some_iff (a x y : Nat) :
    inverse a = some (x, y) ↔ ∃ k, k ≤ 39 ∧ x = 7 * k ∧ y ≤ 191 ∧ a = forward (7 * k) y := by
  constructor
  · intro h
    have hv : ¬(a > 0x1FFF ∨ a % 0x80 ≥ 0x78) := fun e => by simp [(inverse_eq_none_iff a).2 e] at h
    obtain ⟨g, r, o, k, hg, hr, ho, hk, rfl⟩ := address_split (a := a) (by omega) (by omega)
    rw [inverse_split hg hr ho hk, Option.some.injEq, Prod.mk.injEq] at h
    obtain ⟨rfl, rfl⟩ := h
    exact ⟨k, hk, rfl, by omega, (forward_split hr ho).symm⟩
  · rintro ⟨k, hk, rfl, hy, rfl⟩
    obtain ⟨g, r, o, hg, hr, ho, rfl⟩ := line_split hy
    rw [forward_split hr ho, inverse_split hg hr ho hk]

theorem inverse_forward {k y : Nat} (hk : k ≤ 39) (hy : y ≤ 191) : inverse (forward (7 * k) y) = some (7 * k, y) :=
  (inverse_eq_some_iff _ _ _).2 ⟨k, hk, rfl, hy, rfl⟩

theorem forward_lt {k y : Nat} (hk : k ≤ 39) (hy : y ≤ 191) : forward (7 * k) y < 8192 := by
  rw [forward_eq]; omega

/-- Byte columns of one line are neighbours. -/
theorem forward_succ (k y : Nat) : forward (7 * (k + 1)) y = forward (7 * k) y + 1 := by
  simp only [forward_eq]; omega

end Sys2Proof.Machine
end

