-- ==== Sys2Proof/Laws/Operands.lean ====
section
/-! SUPPORT. The operand domains as plain inequalities. -/
namespace Sys2Proof.Machine

@[simp] theorem inRaster_iff (row col : Nat) : inRaster row col = true ↔ row ≤ 191 ∧ col ≤ 559 := by
  simp only [inRaster, Config.lines, Config.rasterWidth, Bool.and_eq_true, decide_eq_true_eq]; omega

@[simp] theorem inCoordinateDomain_iff (x y : Nat) : inCoordinateDomain x y = true ↔ x ≤ 279 ∧ y ≤ 191 := by
  simp only [inCoordinateDomain, Config.lines, Config.logicalColumns, Bool.and_eq_true, decide_eq_true_eq]; omega

@[simp] theorem isHole_iff (a : Nat) : isHole a = true ↔ a ≤ 0x1FFF ∧ 0x78 ≤ a % 0x80 := by
  simp [isHole]

@[simp] theorem isValidAddress_iff (a : Nat) : isValidAddress a = true ↔ a ≤ 0x1FFF ∧ a % 0x80 ≤ 0x77 := by
  simp [isValidAddress]

theorem shiftOf_of_shifted {v : Byte} (h : shiftBit v = true) : shiftOf v = 1 := by simp [shiftOf, h]

theorem shiftOf_of_unshifted {v : Byte} (h : shiftBit v = false) : shiftOf v = 0 := by simp [shiftOf, h]

theorem shiftOf_le (v : Byte) : shiftOf v ≤ 1 := by
  unfold shiftOf; split <;> omega

end Sys2Proof.Machine
end

