-- ==== Sys2Proof/Laws/Sparse.lean ====
section
/-! SUPPORT. What the operations on sparse lists, on FB and on RASTER do: a read after a write, and the canonical form
that every operation keeps. -/
namespace Sys2Proof.Machine

variable {w : Nat} {hi lo : Nat}

@[simp] theorem Sparse.read_nil (a : Nat) : Sparse.read ([] : List (Nat × BitVec w)) a = 0#w := rfl

theorem Sparse.wf_mono {lo' : Nat} {m : List (Nat × BitVec w)} (h : Sparse.wf hi lo m = true) (hle : lo' ≤ lo) :
    Sparse.wf hi lo' m = true := by
  cases m with
  | nil => rfl
  | cons e m =>
    obtain ⟨k, v⟩ := e
    simp only [Sparse.wf, Bool.and_eq_true, decide_eq_true_eq] at h ⊢
    exact ⟨⟨⟨by omega, h.1.1.2⟩, h.1.2⟩, h.2⟩

/-- Below its first key a canonical list reads as zero. -/
theorem Sparse.read_below {m : List (Nat × BitVec w)} (h : Sparse.wf hi lo m = true) {a : Nat} (ha : a < lo) :
    Sparse.read m a = 0#w := by
  induction m generalizing lo with
  | nil => rfl
  | cons e m ih =>
    obtain ⟨k, v⟩ := e
    simp only [Sparse.wf, Bool.and_eq_true, decide_eq_true_eq] at h
    rw [Sparse.read, if_neg (by omega), ih h.2 (by omega)]

/-- From its upper bound on a canonical list reads as zero. -/
theorem Sparse.read_above {m : List (Nat × BitVec w)} (h : Sparse.wf hi lo m = true) {a : Nat} (ha : hi ≤ a) :
    Sparse.read m a = 0#w := by
  induction m generalizing lo with
  | nil => rfl
  | cons e m ih =>
    obtain ⟨k, v⟩ := e
    simp only [Sparse.wf, Bool.and_eq_true, decide_eq_true_eq] at h
    rw [Sparse.read, if_neg (by omega), ih h.2]

theorem Sparse.read_cons (k : Nat) (v : BitVec w) (m : List (Nat × BitVec w)) (a : Nat)
    (hm : Sparse.read m k = 0#w) :
    Sparse.read (Sparse.cons k v m) a = if a = k then v else Sparse.read m a := by
  unfold Sparse.cons
  by_cases hv : v = 0#w
  · subst hv
    simp only [beq_self_eq_true, if_true]
    split
    · next h => subst h; exact hm
    · rfl
  · rw [if_neg (by simpa using hv), Sparse.read]
    simp only [eq_comm]

theorem Sparse.wf_cons {k : Nat} {v : BitVec w} {m : List (Nat × BitVec w)} (hlo : lo ≤ k) (hhi : k < hi)
    (h : Sparse.wf hi (k + 1) m = true) : Sparse.wf hi lo (Sparse.cons k v m) = true := by
  unfold Sparse.cons
  by_cases hv : v = 0#w
  · have := Sparse.wf_mono (lo' := lo) h (by omega)
    simpa [hv] using this
  · simp [hv, Sparse.wf, hlo, hhi, h]

/-- A write keeps the canonical form. -/
theorem Sparse.wf_write {m : List (Nat × BitVec w)} {a : Nat} {u : BitVec w} (h : Sparse.wf hi lo m = true)
    (hlo : lo ≤ a) (hhi : a < hi) : Sparse.wf hi lo (Sparse.write m a u) = true := by
  induction m generalizing lo with
  | nil => exact Sparse.wf_cons hlo hhi rfl
  | cons e m ih =>
    obtain ⟨k, v⟩ := e
    simp only [Sparse.wf, Bool.and_eq_true, decide_eq_true_eq] at h
    obtain ⟨⟨⟨h1, h2⟩, h3⟩, h4⟩ := h
    unfold Sparse.write
    split
    · refine Sparse.wf_cons hlo hhi ?_
      simp only [Sparse.wf, Bool.and_eq_true, decide_eq_true_eq]
      exact ⟨⟨⟨by omega, h2⟩, h3⟩, h4⟩
    · split
      · next h => subst h; exact Sparse.wf_cons hlo hhi h4
      · simp only [Sparse.wf, Bool.and_eq_true, decide_eq_true_eq]
        exact ⟨⟨⟨h1, h2⟩, h3⟩, ih h4 (by omega)⟩

/-- A read after a write. -/
theorem Sparse.read_write {m : List (Nat × BitVec w)} (h : Sparse.wf hi lo m = true) (a : Nat) (u : BitVec w)
    (b : Nat) : Sparse.read (Sparse.write m a u) b = if b = a then u else Sparse.read m b := by
  induction m generalizing lo with
  | nil => exact Sparse.read_cons _ _ _ _ rfl
  | cons e m ih =>
    obtain ⟨k, v⟩ := e
    have h' := h
    simp only [Sparse.wf, Bool.and_eq_true, decide_eq_true_eq] at h
    obtain ⟨⟨⟨h1, h2⟩, h3⟩, h4⟩ := h
    unfold Sparse.write
    split
    · next hk =>
      apply Sparse.read_cons
      refine Sparse.read_below (hi := hi) (lo := k) ?_ hk
      simp only [Sparse.wf, Bool.and_eq_true, decide_eq_true_eq]
      exact ⟨⟨⟨by omega, h2⟩, h3⟩, h4⟩
    · split
      · next hk =>
        subst hk
        rw [Sparse.read_cons _ _ _ _ (Sparse.read_below h4 (by omega)), Sparse.read]
        split
        · rfl
        · next hb => rw [if_neg (Ne.symm hb)]
      · next hk =>
        simp only [Sparse.read]
        rw [ih h4]
        split
        · next hb => subst hb; rw [if_neg hk]
        · rfl

/-- Two canonical lists that read alike are the same list. -/
theorem Sparse.ext {m m' : List (Nat × BitVec w)} (h : Sparse.wf hi lo m = true) (h' : Sparse.wf hi lo m' = true)
    (hr : ∀ a, a < hi → Sparse.read m a = Sparse.read m' a) : m = m' := by
  induction m generalizing lo m' with
  | nil =>
    cases m' with
    | nil => rfl
    | cons e m' =>
      obtain ⟨k, v⟩ := e
      simp only [Sparse.wf, Bool.and_eq_true, decide_eq_true_eq] at h'
      have := hr k h'.1.1.2
      simp only [Sparse.read, if_true] at this
      simp [← this] at h'
  | cons e m ih =>
    obtain ⟨k, v⟩ := e
    have hw := h
    simp only [Sparse.wf, Bool.and_eq_true, decide_eq_true_eq] at h
    cases m' with
    | nil =>
      have := hr k h.1.1.2
      simp only [Sparse.read, if_true] at this
      simp [this] at h
    | cons e' m' =>
      obtain ⟨k', v'⟩ := e'
      have hw' := h'
      simp only [Sparse.wf, Bool.and_eq_true, decide_eq_true_eq] at h'
      have hkk : k = k' := by
        rcases Nat.lt_trichotomy k k' with hlt | heq | hgt
        · exfalso
          have := hr k h.1.1.2
          simp only [Sparse.read, if_true, if_neg (by omega : ¬k' = k)] at this
          rw [Sparse.read_below h'.2 (by omega)] at this
          simp [this] at h
        · exact heq
        · exfalso
          have := hr k' h'.1.1.2
          simp only [Sparse.read, if_true, if_neg (by omega : ¬k = k')] at this
          rw [Sparse.read_below h.2 (by omega)] at this
          simp [← this] at h'
      subst hkk
      have hv : v = v' := by simpa [Sparse.read] using hr k h.1.1.2
      subst hv
      rw [ih h.2 h'.2 fun a ha => ?_]
      by_cases hak : a = k
      · subst hak
        rw [Sparse.read_below h.2 (by omega), Sparse.read_below h'.2 (by omega)]
      · simpa [Sparse.read, Ne.symm hak] using hr a ha

/-! ## FB -/

theorem Memory.layOut_wf (a : Nat) (bytes : List Byte) (h : a + bytes.length ≤ hi) :
    Sparse.wf hi a (Memory.layOut a bytes) = true := by
  induction bytes generalizing a with
  | nil => rfl
  | cons b bs ih =>
    simp only [List.length_cons] at h
    exact Sparse.wf_cons (Nat.le_refl a) (by omega) (ih (a + 1) (by omega))

theorem Memory.read_layOut (a : Nat) (bytes : List Byte) (i : Nat) :
    Sparse.read (Memory.layOut a bytes) i = if a ≤ i then bytes[i - a]?.getD 0 else 0 := by
  induction bytes generalizing a i with
  | nil => simp [Memory.layOut]
  | cons b bs ih =>
    rw [Memory.layOut, Sparse.read_cons _ _ _ _ (by rw [ih]; simp), ih]
    rcases Nat.lt_trichotomy i a with h | h | h
    · rw [if_neg (by omega), if_neg (by omega), if_neg (by omega)]
    · subst h; simp
    · rw [if_neg (by omega), if_pos (by omega), if_pos (by omega)]
      obtain ⟨d, rfl⟩ : ∃ d, i = a + 1 + d := ⟨i - (a + 1), by omega⟩
      simp [show a + 1 + d - a = d + 1 by omega]

/-- The latch keeps the canonical form. -/
theorem Memory.ofBytes_wf (bytes : List Byte) (h : bytes.length = 8192) : Memory.wf (Memory.ofBytes bytes) = true :=
  Memory.layOut_wf 0 bytes (by simp [h])

/-- The latch holds byte a of the sequence at address a. -/
theorem Memory.read_ofBytes (bytes : List Byte) (a : Nat) : Memory.read (Memory.ofBytes bytes) a = bytes[a]?.getD 0 := by
  simp [Memory.read, Memory.ofBytes, Memory.read_layOut]

/-! ## RASTER -/

theorem RasterLine.getLsbD_set (line : RasterLine) (col : Nat) (p : Pixel) (hc : col < 560) (c : Nat) :
    (RasterLine.set line col p).getLsbD c = if c = col then p else line.getLsbD c := by
  unfold RasterLine.set
  by_cases h : c = col
  · subst h
    cases p <;> simp [hc]
  · have h' : ¬col = c := fun e => h e.symm
    cases p
    · by_cases hc' : c < 560
      · simp [h, hc']
      · simp [h, BitVec.getLsbD_of_ge _ _ (Nat.le_of_not_lt hc')]
    · simp [h, h']

@[simp] theorem rasterRead_clear (row col : Nat) : rasterRead rasterClear row col = false := by
  simp [rasterRead, rasterClear]

@[simp] theorem rasterClear_wf : Raster.wf rasterClear = true := rfl

/-- A raster write keeps the canonical form. -/
theorem rasterWrite_wf {r : Raster} (h : Raster.wf r = true) (row col : Nat) (p : Pixel) :
    Raster.wf (rasterWrite r row col p) = true := by
  unfold rasterWrite
  split
  · next hin =>
    rw [inRaster_iff] at hin
    exact Sparse.wf_write h (Nat.zero_le _) (Nat.lt_succ_of_le hin.1)
  · exact h

/-- A pixel after a raster write. -/
theorem rasterRead_rasterWrite {r : Raster} (h : Raster.wf r = true) (row col : Nat) (p : Pixel) (row' col' : Nat) :
    rasterRead (rasterWrite r row col p) row' col' =
      if inRaster row col = true ∧ row' = row ∧ col' = col then p else rasterRead r row' col' := by
  unfold rasterWrite rasterRead
  by_cases hin : inRaster row col = true
  · have hc : col < 560 := by
      simp only [inRaster, Bool.and_eq_true, decide_eq_true_eq] at hin
      exact hin.2
    simp only [hin, if_true, Sparse.read_write h, true_and]
    by_cases hr : row' = row
    · subst hr
      simp [RasterLine.getLsbD_set _ _ _ hc]
    · simp [hr]
  · simp [hin]

/-- Two rasters in canonical form with the same pixels are the same list. -/
theorem Raster.ext {r r' : Raster} (h : Raster.wf r = true) (h' : Raster.wf r' = true)
    (hp : ∀ row col, inRaster row col = true → rasterRead r row col = rasterRead r' row col) : r = r' := by
  refine Sparse.ext h h' fun row hrow => ?_
  apply BitVec.eq_of_getLsbD_eq
  intro col hcol
  exact hp row col ((inRaster_iff row col).2 ⟨Nat.le_of_lt_succ hrow, Nat.le_of_lt_succ hcol⟩)

end Sys2Proof.Machine
end

