-- ==== Sys2Proof/Laws/Raster.lean ====
section
/-! SUPPORT. A list of raster writes: the last write to a cell decides it (R26). -/
namespace Sys2Proof.Machine

/-- A list of raster writes keeps the canonical form. -/
theorem foldl_apply_wf {r : Raster} (h : Raster.wf r = true) (ws : List PixelWrite) :
    Raster.wf (ws.foldl PixelWrite.apply r) = true := by
  induction ws generalizing r with
  | nil => exact h
  | cons w ws ih => exact ih (rasterWrite_wf h _ _ _)

/-- A pixel after a list of raster writes: that of the last write to it, or else unchanged. -/
theorem rasterRead_foldl_apply {r : Raster} (h : Raster.wf r = true) (ws : List PixelWrite) {row col : Nat}
    (hin : inRaster row col = true) :
    rasterRead (ws.foldl PixelWrite.apply r) row col =
      ((writesTo row col ws).getLast?.map PixelWrite.pixel).getD (rasterRead r row col) := by
  induction ws generalizing r with
  | nil => rfl
  | cons w ws ih =>
    have hw : Raster.wf (w.apply r) = true := rasterWrite_wf h _ _ _
    simp only [List.foldl_cons, PixelWrite.apply] at hw ⊢
    rw [ih hw, rasterRead_rasterWrite h]
    by_cases hc : w.row = row ∧ w.col = col
    · obtain ⟨rfl, rfl⟩ := hc
      have hf : writesTo w.row w.col (w :: ws) = w :: writesTo w.row w.col ws := by
        simp [writesTo]
      rw [hf]
      cases writesTo w.row w.col ws with
      | nil => simp [hin]
      | cons e es => simp [List.getLast?_cons]
    · have hne : ¬(row = w.row ∧ col = w.col) := fun e => hc ⟨e.1.symm, e.2.symm⟩
      have hf : writesTo row col (w :: ws) = writesTo row col ws := by
        simp only [writesTo, List.filter_cons, Bool.and_eq_true, beq_iff_eq, if_neg hc]
      rw [hf]
      simp [hne]

theorem writesTo_append (row col : Nat) (ws ws' : List PixelWrite) :
    writesTo row col (ws ++ ws') = writesTo row col ws ++ writesTo row col ws' := List.filter_append ..

/-- The one write of a byte's group to a cell, if there is one (R59). -/
theorem writesTo_groupWrites (y x : Nat) (v : Byte) (row col : Nat) :
    writesTo row col (groupWrites y x v) =
      if y = row ∧ 2 * x + shiftOf v ≤ col ∧ col ≤ 2 * x + shiftOf v + 13 then
        [⟨row, col, sample v ((col - (2 * x + shiftOf v)) / 2)⟩]
      else [] := by
  have hg : groupWrites y x v =
      (List.range 14).map fun i => ⟨y, 2 * x + shiftOf v + i, sample v (i / 2)⟩ := by
    simp [groupWrites, bitWrites, List.range_succ, Nat.add_assoc]
  rw [hg]
  split
  · next h =>
    obtain ⟨rfl, h1, h2⟩ := h
    obtain ⟨d, rfl⟩ : ∃ d, col = 2 * x + shiftOf v + d := ⟨col - (2 * x + shiftOf v), by omega⟩
    have hd : d < 14 := by omega
    simp only [Nat.add_sub_cancel_left]
    interval_cases d <;> simp [writesTo, List.range_succ]
  · next h =>
    simp only [writesTo, List.filter_eq_nil_iff, List.mem_map, List.mem_range, Bool.and_eq_true, beq_iff_eq]
    rintro w ⟨i, hi, rfl⟩ ⟨h1, h2⟩
    exact h ⟨h1, by simp only at h2; omega, by simp only at h2; omega⟩

end Sys2Proof.Machine
end

