-- ==== Sys2Proof/Laws/Pass.lean ====
section
/-! SUPPORT. The pass: what one pass step and n of them do, and which writes of a pass go to a cell. -/
namespace Sys2Proof.Machine

/-! ## One byte -/

/-- A byte's effect on the raster is its list of writes. -/
theorem decodeByte_eq (m : Memory) (a : Nat) (r : Raster) :
    decodeByte m a r = (byteWrites m a).foldl PixelWrite.apply r := by
  unfold decodeByte byteWrites
  cases inverse a with
  | none => rfl
  | some xy => rfl

theorem decodeByte_wf {r : Raster} (h : Raster.wf r = true) (m : Memory) (a : Nat) :
    Raster.wf (decodeByte m a r) = true := by
  rw [decodeByte_eq]; exact foldl_apply_wf h _

/-- Bytes decoded one after the other are one list of writes. -/
theorem foldl_decodeByte_eq (m : Memory) (order : List Nat) (r : Raster) :
    order.foldl (fun r a => decodeByte m a r) r = (order.flatMap (byteWrites m)).foldl PixelWrite.apply r := by
  simp only [decodeByte_eq, List.foldl_flatMap]

theorem rasterAfter_eq (m : Memory) (n : Nat) :
    rasterAfter m n = ((List.range n).flatMap (byteWrites m)).foldl PixelWrite.apply rasterClear :=
  foldl_decodeByte_eq m _ _

theorem rasterAfter_wf (m : Memory) (n : Nat) : Raster.wf (rasterAfter m n) = true := by
  rw [rasterAfter_eq]; exact foldl_apply_wf rasterClear_wf _

@[simp] theorem rasterAfter_zero (m : Memory) : rasterAfter m 0 = rasterClear := rfl

theorem rasterAfter_succ (m : Memory) (n : Nat) : rasterAfter m (n + 1) = decodeByte m n (rasterAfter m n) := by
  simp [rasterAfter, List.range_succ]

/-! ## Pass steps -/

/-- A pass step where it runs. -/
theorem passStep_running {s : State} {m : Memory} (hf : s.fb = some m) (hr : s.status = .running)
    (hc : s.cursor.toNat < 8192) :
    passStep s = { s with raster := decodeByte m s.cursor.toNat s.raster, cursor := s.cursor + 1 } := by
  simp [passStep, hf, hr, hc]

@[simp] theorem passStep_fb (s : State) : (passStep s).fb = s.fb := by
  unfold passStep
  split
  · rfl
  · split <;> rfl

@[simp] theorem passStep_status (s : State) : (passStep s).status = s.status := by
  unfold passStep
  split
  · rfl
  · split <;> rfl

@[simp] theorem passStep_pending (s : State) : (passStep s).pending = s.pending := by
  unfold passStep
  split
  · rfl
  · split <;> rfl

@[simp] theorem passStep_inbuf (s : State) : (passStep s).inbuf = s.inbuf := by
  unfold passStep
  split
  · rfl
  · split <;> rfl

@[simp] theorem passStep_response (s : State) : (passStep s).response = s.response := by
  unfold passStep
  split
  · rfl
  · split <;> rfl

theorem cursor_succ {c : BitVec 14} (h : c.toNat < 8192) : (c + 1).toNat = c.toNat + 1 := by
  rw [BitVec.toNat_add]; simp; omega

theorem passSteps_succ (n : Nat) (s : State) : passSteps (n + 1) s = passStep (passSteps n s) := by
  induction n generalizing s with
  | zero => rfl
  | succ n ih => rw [passSteps, ih]; rfl

@[simp] theorem passSteps_fb (n : Nat) (s : State) : (passSteps n s).fb = s.fb := by
  induction n generalizing s with
  | zero => rfl
  | succ n ih => rw [passSteps, ih, passStep_fb]

@[simp] theorem passSteps_status (n : Nat) (s : State) : (passSteps n s).status = s.status := by
  induction n generalizing s with
  | zero => rfl
  | succ n ih => rw [passSteps, ih, passStep_status]

/-- What n pass steps from the start of a frame leave, as long as there are bytes left. -/
theorem passSteps_eq {s : State} {m : Memory} (hf : s.fb = some m) (hr : s.status = .running) (hc : s.cursor = 0)
    {n : Nat} (hn : n ≤ 8192) :
    passSteps n s =
      { s with
        raster := (List.range n).foldl (fun r a => decodeByte m a r) s.raster
        cursor := BitVec.ofNat 14 n } := by
  induction n with
  | zero => cases s; subst hc; rfl
  | succ n ih =>
    rw [passSteps_succ, ih (by omega)]
    have ht : (BitVec.ofNat 14 n).toNat = n := by
      simp only [BitVec.toNat_ofNat]; omega
    have hs : BitVec.ofNat 14 n + 1 = BitVec.ofNat 14 (n + 1) := by
      apply BitVec.eq_of_toNat_eq; simp [BitVec.toNat_add, BitVec.toNat_ofNat]
    have hlt : (BitVec.ofNat 14 n).toNat < 8192 := by omega
    rw [passStep_running (m := m) (by exact hf) (by exact hr) (by exact hlt)]
    simp only [List.range_succ, List.foldl_append, List.foldl_cons, List.foldl_nil, ht, hs]

/-- The whole pass of a frame (R64, R65). -/
theorem pass_startFrame (s : State) :
    pass (startFrame s) =
      { s with
        fb := some (Memory.ofBytes s.inbuf)
        raster := rasterAfter (Memory.ofBytes s.inbuf) 8192
        cursor := 8192
        status := .done } := by
  rw [pass, passSteps_eq (m := Memory.ofBytes s.inbuf) rfl rfl rfl (Nat.le_refl _)]
  simp [finishPass, startFrame, rasterAfter]

/-- DFRAME on a frame: the whole next state (R65). -/
theorem execDframe_frame {s : State} (h : s.inbuf.length = 8192) :
    execDframe s = .next
      { s with
        fb := some (Memory.ofBytes s.inbuf)
        raster := rasterAfter (Memory.ofBytes s.inbuf) 8192
        cursor := 8192
        status := .done
        response := some ⟨0, 0⟩ } := by
  rw [execDframe, if_pos h, pass_startFrame]
  simp [respond, Err.code]

/-! ## The writes of a pass to one cell -/

theorem writesTo_flatMap (row col : Nat) (f : Nat → List PixelWrite) (order : List Nat) :
    writesTo row col (order.flatMap f) = order.flatMap fun a => writesTo row col (f a) := by
  induction order with
  | nil => rfl
  | cons a order ih => rw [List.flatMap_cons, writesTo_append, ih, List.flatMap_cons]

/-- A sum of lists of which only two, in this order, are not empty. -/
theorem flatMap_pair {β : Type} {order : List Nat} {p q : Nat} {g : Nat → List β} (hnd : order.Nodup)
    (hp : p ∈ order) (hq : q ∈ order) (hlt : order.idxOf p < order.idxOf q)
    (hg : ∀ a, a ≠ p → a ≠ q → g a = []) : order.flatMap g = g p ++ g q := by
  induction order with
  | nil => simp at hp
  | cons a order ih =>
    have hpq : p ≠ q := fun e => by simp [e] at hlt
    rw [List.nodup_cons] at hnd
    by_cases hap : a = p
    · subst hap
      have hq' : q ∈ order := by simpa [Ne.symm hpq] using hq
      have : order.flatMap g = g q := by
        clear ih hlt hp hq
        induction order with
        | nil => simp at hq'
        | cons b order ih =>
          rw [List.mem_cons, not_or] at hnd
          rw [List.nodup_cons] at hnd
          by_cases hbq : b = q
          · subst hbq
            have : order.flatMap g = [] := by
              rw [List.flatMap_eq_nil_iff]
              intro c hc
              exact hg c (fun e => hnd.1.2 (e ▸ hc)) (fun e => hnd.2.1 (e ▸ hc))
            simp [this]
          · have := ih ⟨hnd.1.2, hnd.2.2⟩ (by simpa [Ne.symm hbq] using hq')
            simp [this, hg b (Ne.symm hnd.1.1) hbq]
      simp [this]
    · by_cases haq : a = q
      · subst haq
        simp at hlt
      · have hp' : p ∈ order := by simpa [Ne.symm hap] using hp
        have hq' : q ∈ order := by simpa [Ne.symm haq] using hq
        have := ih hnd.2 hp' hq' (by
          rw [List.idxOf_cons_ne _ hap, List.idxOf_cons_ne _ haq] at hlt
          omega)
        simp [this, hg a hap haq]

/-- A sum of lists of which only one is not empty. -/
theorem flatMap_single {β : Type} {order : List Nat} {q : Nat} {g : Nat → List β} (hnd : order.Nodup)
    (hq : q ∈ order) (hg : ∀ a, a ≠ q → g a = []) : order.flatMap g = g q := by
  induction order with
  | nil => simp at hq
  | cons b order ih =>
    rw [List.nodup_cons] at hnd
    by_cases hbq : b = q
    · subst hbq
      have : order.flatMap g = [] := by
        rw [List.flatMap_eq_nil_iff]
        intro c hc
        exact hg c fun e => hnd.1 (e ▸ hc)
      simp [this]
    · simp [ih hnd.2 (by simpa [Ne.symm hbq] using hq), hg b hbq]

/-- The write of a byte to a cell: only a byte of that line writes there, and at most once (R53). -/
theorem writesTo_byteWrites (m : Memory) (a row col : Nat) :
    writesTo row col (byteWrites m a) =
      match inverse a with
      | none => []
      | some (x, y) =>
        if y = row ∧ 2 * x + shiftOf (Memory.read m a) ≤ col ∧ col ≤ 2 * x + shiftOf (Memory.read m a) + 13 then
          [⟨row, col, sample (Memory.read m a) ((col - (2 * x + shiftOf (Memory.read m a))) / 2)⟩]
        else [] := by
  unfold byteWrites
  cases inverse a with
  | none => rfl
  | some xy => exact writesTo_groupWrites _ _ _ _ _

/-- The one write that byte column k of a line makes to a cell of it, if it makes one. -/
def columnWrite (m : Memory) (y k c : Nat) : List PixelWrite :=
  if 14 * k + shiftOf (lineByte m y k) ≤ c ∧ c ≤ 14 * k + shiftOf (lineByte m y k) + 13 then
    [⟨y, c, sample (lineByte m y k) ((c - (14 * k + shiftOf (lineByte m y k))) / 2)⟩]
  else []

theorem writesTo_byteWrites_forward (m : Memory) {y k : Nat} (c : Nat) (hy : y ≤ 191) (hk : k ≤ 39) :
    writesTo y c (byteWrites m (forward (7 * k) y)) = columnWrite m y k c := by
  rw [writesTo_byteWrites, inverse_forward hk hy]
  simp only [columnWrite, lineByte, true_and, show 2 * (7 * k) = 14 * k by omega]
  rfl

/-- A byte that writes to a cell is byte column c / 14 or the one before it. -/
theorem writesTo_byteWrites_eq_nil (m : Memory) {a y c : Nat}
    (hown : ∀ k, k ≤ 39 → c / 14 = k → a ≠ forward (7 * k) y)
    (hprev : ∀ k, k ≤ 39 → c = 14 * (k + 1) → a ≠ forward (7 * k) y) : writesTo y c (byteWrites m a) = [] := by
  rw [writesTo_byteWrites]
  cases h : inverse a with
  | none => rfl
  | some xy =>
    obtain ⟨x, y'⟩ := xy
    obtain ⟨k, hk, rfl, hy', ha⟩ := (inverse_eq_some_iff a x y').1 h
    have hs := shiftOf_le (Memory.read m a)
    simp only
    rw [if_neg]
    rintro ⟨rfl, h1, h2⟩
    by_cases hc : c / 14 = k
    · exact hown k hk hc ha
    · exact hprev k hk (by omega) ha

/-- An order of the addresses that keeps each scan line's bytes from left to right (R84). -/
def KeepsLines (order : List Nat) : Prop :=
  order.Nodup ∧ (∀ a, a < 8192 → a ∈ order) ∧
    ∀ y k, y ≤ 191 → k ≤ 38 → order.idxOf (forward (7 * k) y) < order.idxOf (forward (7 * (k + 1)) y)

/-- The ascending order of the pass does. -/
theorem keepsLines_range : KeepsLines (List.range 8192) := by
  refine ⟨List.nodup_range, fun a h => List.mem_range.2 h, fun y k hy hk => ?_⟩
  have h1 := forward_lt (k := k) (by omega) hy
  have h2 := forward_lt (k := k + 1) (by omega) hy
  have hi : ∀ n, n < 8192 → (List.range 8192).idxOf n = n := fun n hn => by
    have := (List.nodup_range (n := 8192)).idxOf_getElem n (by simpa using hn)
    rwa [List.getElem_range] at this
  rw [hi _ h1, hi _ h2, forward_succ]
  omega

/-- All writes to a cell, in order: those of the byte column before and of its own (R68, R69, R84). -/
theorem writesTo_order (m : Memory) {order : List Nat} (ho : KeepsLines order) {y c : Nat} (hy : y ≤ 191)
    (hc : c ≤ 560) :
    writesTo y c (order.flatMap (byteWrites m)) =
      (if c % 14 = 0 ∧ 1 ≤ c / 14 then columnWrite m y (c / 14 - 1) c else []) ++
        (if c / 14 ≤ 39 then columnWrite m y (c / 14) c else []) := by
  obtain ⟨hnd, hmem, hidx⟩ := ho
  rw [writesTo_flatMap]
  by_cases h0 : c % 14 = 0 ∧ 1 ≤ c / 14
  · rw [if_pos h0]
    obtain ⟨k, hck⟩ : ∃ k, c / 14 = k + 1 := ⟨c / 14 - 1, by omega⟩
    have hk : k ≤ 39 := by omega
    rw [hck, Nat.add_sub_cancel]
    have hp := hmem _ (forward_lt hk hy)
    by_cases hk' : k ≤ 38
    · rw [if_pos (by omega)]
      rw [flatMap_pair hnd hp (hmem _ (forward_lt (k := k + 1) (by omega) hy)) (hidx y k hy hk')]
      · rw [writesTo_byteWrites_forward m c hy hk, writesTo_byteWrites_forward m c hy (by omega)]
      · intro a h1 h2
        refine writesTo_byteWrites_eq_nil m (fun j _ hj => ?_) (fun j _ hj => ?_)
        · rw [show j = k + 1 by omega]; exact h2
        · rw [show j = k by omega]; exact h1
    · rw [if_neg (by omega), List.append_nil]
      rw [flatMap_single hnd hp, writesTo_byteWrites_forward m c hy hk]
      intro a h1
      refine writesTo_byteWrites_eq_nil m (fun j hj' hj => ?_) (fun j _ hj => ?_)
      · omega
      · rw [show j = k by omega]; exact h1
  · rw [if_neg h0, List.nil_append, if_pos (by omega)]
    have hk : c / 14 ≤ 39 := by omega
    rw [flatMap_single hnd (hmem _ (forward_lt hk hy)), writesTo_byteWrites_forward m c hy hk]
    intro a h1
    refine writesTo_byteWrites_eq_nil m (fun j _ hj => ?_) (fun j _ hj => ?_)
    · rw [← hj]; exact h1
    · omega

end Sys2Proof.Machine
end

