-- ==== Sys2Proof/Laws/PerInstr.lean ====
section
/-! SUPPORT. Per-instruction facts about commands as syntax: a well-formed command's word is its row's in the opcode
table (R37, R38). -/
namespace Sys2Proof.Laws

open Sys2Proof.Machine

/-- The encoding of a well-formed command matches its opcode-table row: its OP, and zeros in the reserved bits. -/
def EncodesToItsRow.Statement (i : Instr) : Prop := i.wf = true → i.row.holds (encode i) = true

theorem EncodesToItsRow.fwd (x y : Nat) : EncodesToItsRow.Statement (.fwd x y) := by
  intro h
  have he := encode_toNat h
  simp only [Instr.wf, Bool.and_eq_true, decide_eq_true_eq] at h
  rw [Instr.row, fwd_row_holds_iff]
  simp only [slice_eq, he]
  omega

theorem EncodesToItsRow.inv (a : Nat) : EncodesToItsRow.Statement (.inv a) := by
  intro h
  have he := encode_toNat h
  simp only [Instr.wf, decide_eq_true_eq] at h
  rw [Instr.row, inv_row_holds_iff]
  simp only [slice_eq, he]
  omega

theorem EncodesToItsRow.expand (v : Byte) : EncodesToItsRow.Statement (.expand v) := by
  intro h
  have he := encode_toNat h
  rw [Instr.row, expand_row_holds_iff]
  simp only [slice_eq, he]
  omega

theorem EncodesToItsRow.dframe : EncodesToItsRow.Statement .dframe := fun _ => by decide

theorem EncodesToItsRow.rdpix (col row : Nat) : EncodesToItsRow.Statement (.rdpix col row) := by
  intro h
  have he := encode_toNat h
  simp only [Instr.wf, Bool.and_eq_true, decide_eq_true_eq] at h
  rw [Instr.row, rdpix_row_holds_iff]
  simp only [slice_eq, he]
  omega

theorem EncodesToItsRow.rdstat : EncodesToItsRow.Statement .rdstat := fun _ => by decide

end Sys2Proof.Laws
end

