-- ==== Sys2Proof/Laws/Response.lean ====
section
/-! SUPPORT. The response words as numbers and bits (R40), and the expander's window (R52). -/
namespace Sys2Proof.Machine

@[simp] theorem expand_fst (v : Byte) : (expand v).1 = shiftOf v := rfl

theorem expand_getLsbD (v : Byte) (i : Nat) : (expand v).2.getLsbD i = (decide (i < 15) && windowAt v i) := by
  simp only [expand, BitVec.getLsbD_ofFnLE]
  split <;> simp_all

/-- Bit 7 of a byte as a number is what `shiftOf` adds to a column (R5, R52). -/
theorem shiftOf_eq_bits (v : Byte) : shiftOf v = bits v.toNat 7 7 := by
  revert v; decide

/-- FWD's response is the address (R40). -/
theorem addressResp_toNat {a : Nat} (h : a ≤ 0x1FFF) : (addressResp a).toNat = a := by
  simp only [addressResp, BitVec.toNat_ofNat]; omega

/-- INV's response is the sum of VALID, y and x at their places (R40). -/
theorem coordinateResp_toNat {x y : Nat} (hx : x < 512) (hy : y < 256) :
    (coordinateResp (some (x, y))).toNat = 2 ^ 31 + y * 2 ^ 16 + x := by
  have e1 : (BitVec.ofNat 32 y <<< 16).toNat = y <<< 16 := by
    simp only [BitVec.toNat_shiftLeft, BitVec.toNat_ofNat, Nat.shiftLeft_eq]; omega
  have e2 : (BitVec.ofNat 32 x).toNat = x := by simp only [BitVec.toNat_ofNat]; omega
  have e3 : (1#32 <<< 31).toNat = 1 <<< 31 := by decide
  have h1 : y <<< 16 < 2 ^ 31 := by rw [Nat.shiftLeft_eq]; omega
  have h2 : x < 2 ^ 16 := by omega
  simp only [coordinateResp, BitVec.toNat_or, e1, e2, e3]
  rw [Nat.or_assoc, ← Nat.shiftLeft_add_eq_or_of_lt h2 y,
    ← Nat.shiftLeft_add_eq_or_of_lt (by rw [Nat.shiftLeft_eq]; omega) 1]
  simp only [Nat.shiftLeft_eq]; omega

/-- EXPAND's response is SHIFT above the window (R40). -/
theorem windowResp_toNat {n : Nat} (hn : n ≤ 1) (window : BitVec 15) :
    (windowResp n window).toNat = n * 2 ^ 15 + window.toNat := by
  have hw := window.isLt
  have e1 : (BitVec.ofNat 32 n <<< 15).toNat = n <<< 15 := by
    simp only [BitVec.toNat_shiftLeft, BitVec.toNat_ofNat, Nat.shiftLeft_eq]; omega
  have e2 : (window.setWidth 32).toNat = window.toNat := by
    simp only [BitVec.toNat_setWidth]; omega
  simp only [windowResp, BitVec.toNat_or, e1, e2]
  rw [← Nat.shiftLeft_add_eq_or_of_lt hw n, Nat.shiftLeft_eq]

end Sys2Proof.Machine
end

