-- ==== Sys2Proof/Laws/Step.lean ====
section
/-! SUPPORT. What one step can do, said once: every case of the port, of a command and of the sequencer. -/
namespace Sys2Proof.Machine

/-! ## A command -/

/-- What a command does to the state: DFRAME's two ways, and for every other word the response alone (R65, R66, R73). -/
theorem runCommand_cases (w : Word) (s : State) :
    (w ≠ 0x40000000#32 ∧ ∃ r, runCommand w s = .next { s with response := some r }) ∨
    (w = 0x40000000#32 ∧ s.inbuf.length ≠ 8192 ∧
      runCommand w s = .next { s with status := .sizeError, response := some ⟨0, 3⟩ }) ∨
    (w = 0x40000000#32 ∧ s.inbuf.length = 8192 ∧
      runCommand w s = .next
        { s with
          fb := some (Memory.ofBytes s.inbuf)
          raster := rasterAfter (Memory.ofBytes s.inbuf) 8192
          cursor := 8192
          status := .done
          response := some ⟨0, 0⟩ }) := by
  by_cases hw : w = 0x40000000#32
  · right
    have hr : runCommand w s = execDframe s := by
      rw [runCommand, (decode_eq_dframe_iff w).2 hw]; rfl
    rw [hr]
    by_cases hl : s.inbuf.length = 8192
    · exact .inr ⟨hw, hl, execDframe_frame hl⟩
    · exact .inl ⟨hw, hl, by rw [execDframe, if_neg hl]; rfl⟩
  · left
    refine ⟨hw, ?_⟩
    unfold runCommand
    cases hd : decode w with
    | illegal why => exact ⟨_, rfl⟩
    | instr i =>
      cases i with
      | dframe => exact absurd ((decode_eq_dframe_iff w).1 hd) hw
      | fwd x y => simp only [exec, execFwd]; split <;> exact ⟨_, rfl⟩
      | inv a => exact ⟨_, rfl⟩
      | expand v => exact ⟨_, rfl⟩
      | rdpix col row =>
        simp only [exec, execRdpix]
        split
        · split <;> exact ⟨_, rfl⟩
        · exact ⟨_, rfl⟩
      | rdstat => exact ⟨_, rfl⟩

@[simp] theorem passSteps_pending (n : Nat) (s : State) : (passSteps n s).pending = s.pending := by
  induction n generalizing s with
  | zero => rfl
  | succ n ih => rw [passSteps, ih, passStep_pending]

/-- Whatever a command has done, a reset that overtakes it leaves the reset state (R82). -/
theorem abandonCommand_eq (w : Word) (n : Nat) (s : State) :
    abandonCommand w n s = { State.reset with pending := s.pending } := by
  have hp : ∀ i, (underWay n i s).pending = s.pending := by
    intro i
    cases i <;> simp only [underWay]
    split
    · rw [passSteps_pending, startFrame_pending]
    · rfl
  have hr : ∀ u : State, resetBlock u = { State.reset with pending := u.pending } := fun _ => rfl
  unfold abandonCommand
  split
  · rw [hr, hp]
  · rw [hr]

/-! ## The step -/

/-- Between two commands the step takes the host's next event. -/
theorem step_port {s : State} (h : AtPort s) : step s = hostStep s := by
  rw [step, if_neg fun e => h e.1]

/-- A reset is taken in every state (R82). -/
theorem step_reset {s : State} {rest : List HostEvent} (h : s.pending = .reset :: rest) :
    step s = .next { State.reset with pending := rest } := by
  rw [step, if_neg (by simp [resetArrives, h]), hostStep, h]
  rfl

/-- In the middle of a pass the step is the sequencer's. -/
theorem step_running {s : State} (h : s.status = .running) (h' : resetArrives s = false) :
    step s = sequencerStep s := by
  rw [step, if_pos ⟨h, h'⟩]

/-- Every way a step can answer a next state. -/
theorem step_cases {s t : State} (h : step s = .next t) :
    (∃ rest, s.pending = .reset :: rest ∧ t = { State.reset with pending := rest }) ∨
    (s.status = .running ∧ resetArrives s = false ∧ sequencerStep s = .next t) ∨
    (AtPort s ∧ s.pending = [] ∧ t = waitForHost s) ∨
    (AtPort s ∧ ∃ w b n rest, s.pending = .resetDuring w b n :: rest ∧ t = { State.reset with pending := rest }) ∨
    (AtPort s ∧ ∃ w b rest, s.pending = .command w b :: rest ∧
      runCommand w { s with pending := rest, inbuf := b } = .next t) := by
  by_cases hr : resetArrives s = true
  · left
    unfold resetArrives at hr
    cases hp : s.pending with
    | nil => simp [hp] at hr
    | cons e rest =>
      simp only [hp, List.head?_cons, beq_iff_eq, Option.some.injEq] at hr
      subst hr
      rw [step_reset hp] at h
      cases h
      exact ⟨rest, rfl, rfl⟩
  · replace hr : resetArrives s = false := by simpa using hr
    right
    by_cases hs : s.status = .running
    · exact .inl ⟨hs, hr, by rw [← step_running hs hr]; exact h⟩
    · right
      rw [step_port hs, hostStep] at h
      split at h
      · next hp => cases h; exact .inl ⟨hs, hp, rfl⟩
      · next w b rest hp => exact .inr (.inr ⟨hs, w, b, rest, hp, h⟩)
      · next rest hp => simp [resetArrives, hp] at hr
      · next w b n rest hp =>
        rw [abandonCommand_eq] at h
        cases h
        exact .inr (.inl ⟨hs, w, b, n, rest, hp, rfl⟩)

/-- Every way a step in the middle of a pass can answer a next state (R63, R64). -/
theorem sequencerStep_cases {s t : State} (h : sequencerStep s = .next t) :
    ∃ m, s.fb = some m ∧
      ((s.cursor.toNat = 8192 ∧ t = { s with status := .done, response := some ⟨0, 0⟩ }) ∨
        (s.cursor.toNat < 8192 ∧ t = { passStep s with response := none })) := by
  unfold sequencerStep at h
  simp only [Config.fbSize] at h
  split at h
  · next hc =>
    obtain ⟨m, hm⟩ := Option.isSome_iff_exists.1 hc.1
    refine ⟨m, hm, ?_⟩
    split at h
    · next h8 => cases h; exact .inl ⟨h8, rfl⟩
    · next h8 => cases h; exact .inr ⟨Nat.lt_of_le_of_ne hc.2 h8, rfl⟩
  · cases h

/-! ## Runs -/

/-- A run of one step more. -/
theorem run_succ {s t : State} (n : Nat) (h : step s = .next t) :
    Host.Core.run core (n + 1) s = Host.Core.run core n t := by
  have h' : core.step s = .next t := h
  simp only [Host.Core.run, h']

end Sys2Proof.Machine
end

