-- ==== Sys2Proof/Tests/Slice0.lean ====
section
/-! SUPPORT. Tests, with expected values from spec/95_test_vectors.md (S, V and P below) or from the rule named, and for
each obligation with hypotheses a witness that they can be met, at the ends of their ranges. -/
namespace Sys2Proof.Tests

open Sys2Proof.Machine

/-! ## Helpers -/

/-- The reset state with the host about to do `events`. -/
def port (events : List HostEvent) : State := { State.reset with pending := events }

/-- The reset state with one command pending, nothing on the data port. -/
def issue (w : Word) : State := port [.command w []]

/-- What the host reads after a step: RESP and ERR. -/
def answer (o : Outcome) : Option (Nat × Nat) := (responseOf o).map fun r => (r.resp.toNat, r.err.toNat)

/-- STATE after a step. -/
def statusOf : Outcome → Option RunState
  | .next t => some t.status
  | .fault _ => none
  | .refused _ => none

/-- 8192 bytes of 0x00. -/
def zeroFrame : List Byte := List.replicate 8192 0

/-- A state after `c` steps of the pass over an all-zero frame. -/
def midPass (c : Nat) : State :=
  { State.reset with fb := some [], raster := rasterAfter [] c, cursor := BitVec.ofNat 14 c, status := .running }

/-- The state after a whole pass over an all-zero frame. -/
def finished : State := { midPass 8192 with status := .done }

/-- DONE, with one pixel on: (0, 1). -/
def onePixel : State := { State.reset with status := .done, raster := [(0, 2#560)] }

/-! ## Decoding: words written bit by bit from the patterns of R37 -/

theorem test_decode_fwd : decode 0b00010000101000100000000001001101#32 = .instr (.fwd 77 162) := by decide
theorem test_decode_fwd_widest : decode 0b00010000111111110000000111111111#32 = .instr (.fwd 511 255) := by decide
theorem test_decode_inv : decode 0b00100000000000000000101001011011#32 = .instr (.inv 0x0A5B) := by decide
theorem test_decode_inv_widest : decode 0b00100000000000001111111111111111#32 = .instr (.inv 0xFFFF) := by decide
theorem test_decode_expand : decode 0b00110000000000000000000010000001#32 = .instr (.expand 0x81) := by decide
theorem test_decode_dframe : decode 0b01000000000000000000000000000000#32 = .instr .dframe := by decide
theorem test_decode_rdpix : decode 0b01010000101111110000001000101111#32 = .instr (.rdpix 559 191) := by decide
theorem test_decode_rdpix_widest : decode 0b01010000111111110000001111111111#32 = .instr (.rdpix 1023 255) := by decide
theorem test_decode_rdstat : decode 0b01100000000000000000000000000000#32 = .instr .rdstat := by decide

/-- R36, V7: an OP that selects no command. -/
theorem test_decode_no_opcode :
    decode 0x00000000#32 = .illegal (.opcode 0) ∧ decode 0x70000000#32 = .illegal (.opcode 7) ∧
      decode 0xF0000000#32 = .illegal (.opcode 15) := by decide

/-- V2, V3, V4, V7: a reserved bit of each command. -/
theorem test_decode_reserved_bits :
    decode 0x10000200#32 = .illegal (.reservedBit 1) ∧ decode 0x11000000#32 = .illegal (.reservedBit 1) ∧
      decode 0x20010000#32 = .illegal (.reservedBit 2) ∧ decode 0x30000100#32 = .illegal (.reservedBit 3) ∧
      decode 0x40000001#32 = .illegal (.reservedBit 4) ∧ decode 0x50000400#32 = .illegal (.reservedBit 5) ∧
      decode 0x51000000#32 = .illegal (.reservedBit 5) ∧ decode 0x60000001#32 = .illegal (.reservedBit 6) := by decide

/-- R41: the worked encodings. -/
theorem test_encode_worked :
    encode (.fwd 77 162) = 0x10A2004D#32 ∧ encode (.inv 0x0A5B) = 0x20000A5B#32 ∧
      encode (.expand 0x81) = 0x30000081#32 ∧ encode (.rdpix 559 0) = 0x5000022F#32 ∧
      encode .rdstat = 0x60000000#32 ∧ encode .dframe = 0x40000000#32 := by decide

/-- The table's bits are the word's: a row's word, one with high bits dropped, and one the decoder refuses. -/
theorem test_decode_table_word :
    decodeTableWord 32 0x50BF022F = some (.rdpix 559 191) ∧ decodeTableWord 32 0x70000000 = none ∧
      decodeTableWord 24 0x10000000 = none := by decide

/-! ## WellFormed: an ill-formed term for each check, and the last term each lets through -/

theorem test_wf_fwd_x : Instr.wf (.fwd 512 0) = false ∧ Instr.wf (.fwd 511 0) = true := by decide
theorem test_wf_fwd_y : Instr.wf (.fwd 0 256) = false ∧ Instr.wf (.fwd 0 255) = true := by decide
theorem test_wf_inv : Instr.wf (.inv 0x10000) = false ∧ Instr.wf (.inv 0xFFFF) = true := by decide
theorem test_wf_rdpix_col : Instr.wf (.rdpix 1024 0) = false ∧ Instr.wf (.rdpix 1023 0) = true := by decide
theorem test_wf_rdpix_row : Instr.wf (.rdpix 0 256) = false ∧ Instr.wf (.rdpix 0 255) = true := by decide

/-! ## One step of each command -/

/-- V2: the largest address, and an x that is no multiple of 7. -/
theorem test_fwd :
    answer (step (issue 0x10BF0117#32)) = some (0x1FF7, 0) ∧
      answer (step (issue 0x1041000D#32)) = some (0x0429, 0) := by decide

/-- V2: DOMAIN, and ILLEGAL_COMMAND before it. -/
theorem test_fwd_errors :
    answer (step (issue 0x10000118#32)) = some (0, 2) ∧ answer (step (issue 0x10C00000#32)) = some (0, 2) ∧
      answer (step (issue 0x11000118#32)) = some (0, 1) := by decide

/-- V3: a valid address of group 1 and one of group 2. -/
theorem test_inv :
    answer (step (issue 0x2000123C#32)) = some (0x8064008C, 0) ∧
      answer (step (issue 0x20001FF7#32)) = some (0x80BF0111, 0) := by decide

/-- V3: a hole, and an address above 0x1FFF with the low bits of a valid one. -/
theorem test_inv_invalid :
    answer (step (issue 0x20000078#32)) = some (0, 0) ∧ answer (step (issue 0x20002000#32)) = some (0, 0) := by decide

/-- V4: alternating bits, unshifted and shifted. -/
theorem test_expand :
    answer (step (issue 0x30000055#32)) = some (0x3333, 0) ∧
      answer (step (issue 0x300000D5#32)) = some (0xE666, 0) := by decide

/-- V4, S4: all off but shifted, and the source's 0x81. -/
theorem test_expand_shifted :
    answer (step (issue 0x30000080#32)) = some (0x8000, 0) ∧
      answer (step (issue 0x30000081#32)) = some (0x8006, 0) := by decide

/-- V7: DFRAME with an empty buffer. -/
theorem test_dframe_empty :
    step (issue 0x40000000#32) = .next { State.reset with status := .sizeError, response := some ⟨0, 3⟩ } := rfl

/-- R65: a frame is accepted, ends in DONE and leaves CURSOR at 8192. -/
theorem dframe_runs {b : List Byte} (h : b.length = 8192) :
    ∃ t, step (port [.command 0x40000000#32 b]) = .next t ∧ t.status = .done ∧ t.cursor = 8192 ∧
      t.response = some ⟨0, 0⟩ :=
  ⟨_, execDframe_frame (s := { State.reset with inbuf := b }) h, rfl, rfl, rfl⟩

theorem dframe_answers {b : List Byte} (h : b.length = 8192) :
    ∃ t, exec .dframe { State.reset with inbuf := b } = .next t ∧ t.response = some ⟨0, 0⟩ ∧
      t.fb = some (Memory.ofBytes b) :=
  ⟨_, execDframe_frame (s := { State.reset with inbuf := b }) h, rfl, rfl⟩

theorem dframe_rejects {b : List Byte} (h : b.length ≠ 8192) :
    ∃ t, runCommand 0x40000000#32 { State.reset with inbuf := b } = .next t := ⟨_, if_neg h⟩

theorem dframe_rejected {b : List Byte} (h : b.length ≠ 8192) :
    ∃ t, step (port [.command 0x40000000#32 b]) = .next t := ⟨_, if_neg h⟩

theorem zeroFrame_length : zeroFrame.length = 8192 := List.length_replicate

/-- R65's example: an all-zero frame. -/
theorem test_dframe_zero :
    ∃ t, step (port [.command 0x40000000#32 zeroFrame]) = .next t ∧ t.status = .done ∧ t.cursor = 8192 ∧
      t.response = some ⟨0, 0⟩ := dframe_runs zeroFrame_length

/-- R62: a pixel that is on and its neighbour that is off. -/
theorem test_rdpix :
    answer (step { onePixel with pending := [.command 0x50000001#32 []] }) = some (1, 0) ∧
      answer (step { onePixel with pending := [.command 0x50000002#32 []] }) = some (0, 0) := by decide +kernel

/-- V7: NOT_READY before DOMAIN, DOMAIN in DONE, ILLEGAL_COMMAND before both. -/
theorem test_rdpix_errors :
    answer (step (issue 0x50000230#32)) = some (0, 4) ∧
      answer (step { onePixel with pending := [.command 0x50000230#32 []] }) = some (0, 2) ∧
      answer (step { onePixel with pending := [.command 0x50C00000#32 []] }) = some (0, 2) ∧
      answer (step (issue 0x50000400#32)) = some (0, 1) := by decide +kernel

/-- V7: STATE after reset, and after a size error. -/
theorem test_rdstat :
    answer (step (issue 0x60000000#32)) = some (0, 0) ∧
      answer (step { port [.command 0x60000000#32 []] with status := .sizeError }) = some (2, 0) := by decide

/-- V7: a reserved bit of RDSTAT, and of DFRAME even with a whole frame on the data port. -/
theorem test_reserved_words :
    answer (step (issue 0x60000001#32)) = some (0, 1) ∧
      answer (step (port [.command 0x40000001#32 zeroFrame])) = some (0, 1) :=
  ⟨by decide, rfl⟩

/-- `withFetchWord` runs the word as the first step after reset, whatever events stand behind it. -/
theorem test_with_fetch_word :
    answer (step (State.reset.withFetchWord 32 0x10A2004D)) = some (0x0A5B, 0) ∧
      answer (step ((port [.reset]).withFetchWord 32 0x20000A5B)) = some (0x80A2004D, 0) := by decide

/-- R82: reset between two commands leaves the later one pending. -/
theorem test_reset :
    step { onePixel with pending := [.reset, .command 0x60000000#32 []] } = .next (issue 0x60000000#32) := rfl

/-! ## Stores -/

/-- Writing the value of an unlisted address removes the entry (R6). -/
theorem test_sparse_write :
    Sparse.write (Sparse.write ([] : Memory) 5 0x81#8) 3 0x01#8 = [(3, 0x01#8), (5, 0x81#8)] ∧
      Sparse.write [(3, 0x01#8), (5, 0x81#8)] 5 0#8 = [(3, 0x01#8)] := by decide

/-- A latched sequence: each byte at its own address. -/
theorem test_of_bytes :
    Memory.ofBytes [0x00, 0x81, 0xC0] = [(1, 0x81#8), (2, 0xC0#8)] ∧
      Memory.read (Memory.ofBytes [0x00, 0x81, 0xC0]) 2 = 0xC0 := by decide

/-- V5: writes to the last cell, and beyond it in each direction. -/
theorem test_raster_write :
    rasterRead (rasterWrite rasterClear 191 559 true) 191 559 = true ∧
      rasterWrite rasterClear 0 560 true = rasterClear ∧ rasterWrite rasterClear 192 0 true = rasterClear := by decide +kernel

/-- V5: WriteGroup(5, 273, 0xC0): only (5, 559) is on, and column 560 is discarded. -/
theorem test_write_group_edge :
    ((List.range 560).filter fun c => rasterRead (writeGroup rasterClear 5 273 0xC0) 5 c) = [559] := by
  decide +kernel

/-- V5: the two orders of two groups that share column 14. -/
theorem test_write_group_order :
    rasterRead (writeGroup (writeGroup rasterClear 0 7 0x7F) 0 0 0xC0) 0 14 = true ∧
      rasterRead (writeGroup (writeGroup rasterClear 0 0 0xC0) 0 7 0x00) 0 14 = false ∧
      rasterRead (writeGroup (writeGroup rasterClear 0 0 0xC0) 0 7 0x00) 0 13 = true := by decide +kernel

/-! ## Assembler -/

/-- R41: hexadecimal in either case, a comment, an unknown mnemonic, a missing operand, an operand too wide. -/
theorem test_assembler :
    assembleText "INV 0x0a5B" = some 0x20000A5B#32 ∧ assembleText "DFRAME ; INBUF = 8192 x 0x00" = some 0x40000000#32 ∧
      assembleText "NOP" = none ∧ assembleText "FWD 77" = none ∧ assembleText "RDPIX 1024, 0" = none ∧
      assembleText "FWD 280, 0" = some 0x10000118#32 := by decide

/-! ## Witnesses: the hypotheses of the obligations can be met -/

theorem midPass_inv {c : Nat} (h : c ≤ 8192) : Inv (midPass c) where
  fbCanonical := by rintro m ⟨⟩; rfl
  rasterCanonical := rasterAfter_wf _ _
  beforeFirstFrame := by rintro ⟨⟩
  cursorInRange := by
    simp only [midPass, Config.fbSize, BitVec.toNat_ofNat]
    omega
  rasterOfFrame := by
    rintro m ⟨⟩
    simp only [midPass, BitVec.toNat_ofNat, Nat.mod_eq_of_lt (show c < 2 ^ 14 by omega)]
  passComplete := by
    rintro m ⟨⟩
    exact ⟨by simp [midPass], fun h => absurd rfl h⟩

/-- A state whose pass has reached the end, after its last step. -/
theorem done_inv {s : State} (h : Inv s) (hf : s.fb.isSome = true) (hc : s.cursor.toNat = 8192) :
    Inv { s with status := .done } where
  fbCanonical := h.fbCanonical
  rasterCanonical := h.rasterCanonical
  beforeFirstFrame := fun e => by simp only at e; simp [e] at hf
  cursorInRange := h.cursorInRange
  rasterOfFrame := h.rasterOfFrame
  passComplete := fun _ _ => ⟨by simp, fun _ => hc⟩

theorem finished_inv : Inv finished :=
  done_inv (midPass_inv (Nat.le_refl 8192)) rfl (by simp [midPass])

theorem port_inv (events : List HostEvent) : Inv (port events) where
  fbCanonical := by rintro m ⟨⟩
  rasterCanonical := rfl
  beforeFirstFrame := fun _ => ⟨rfl, rfl, .inl rfl⟩
  cursorInRange := by simp [port, State.reset]
  rasterOfFrame := by rintro m ⟨⟩
  passComplete := by rintro m ⟨⟩

theorem port_atPort (events : List HostEvent) : AtPort (port events) := by simp [AtPort, port, State.reset]

/-- StatusTransitions: a step of every kind, at the port and in a pass. -/
theorem witness_StatusTransitions :
    statusOf (step (port [.reset])) = some .idle ∧ statusOf (step (midPass 0)) = some .running ∧
      statusOf (step (midPass 8192)) = some .done ∧
      statusOf (step (port [.command 0x40000000#32 zeroFrame])) = some .done ∧
      statusOf (step (port [.command 0x40000000#32 []])) = some .sizeError ∧
      statusOf (step (port [.command 0x70000000#32 []])) = some .idle ∧
      statusOf (step (port [.resetDuring 0x40000000#32 [] 7])) = some .idle ∧
      statusOf (step (port [])) = some .idle ∧ AtPort (port []) := by
  refine ⟨rfl, rfl, rfl, ?_, rfl, rfl, rfl, rfl, port_atPort []⟩
  obtain ⟨t, ht, hs, -⟩ := test_dframe_zero
  rw [ht, statusOf, hs]

/-- CursorOnlyMovesInPass: a state of the invariant for each of its clauses, the first and the last byte among them. -/
theorem witness_CursorOnlyMovesInPass :
    (Inv (midPass 0) ∧ resetArrives (midPass 0) = false ∧ ∃ t, step (midPass 0) = .next t) ∧
      (Inv (midPass 8191) ∧ ∃ t, step (midPass 8191) = .next t) ∧
      (Inv (midPass 8192) ∧ ∃ t, step (midPass 8192) = .next t) ∧
      (∀ events, Inv (port events) ∧ AtPort (port events)) ∧
      (∃ t, step (port [.command 0x40000000#32 zeroFrame]) = .next t) ∧ (∃ t, step (port []) = .next t) ∧
      (∃ t, step (port [.resetDuring 0x40000000#32 zeroFrame 8192]) = .next t) ∧
      ∃ t, step (port [.reset]) = .next t :=
  ⟨⟨midPass_inv (by omega), rfl, _, rfl⟩, ⟨midPass_inv (by omega), _, rfl⟩, ⟨midPass_inv (by omega), _, rfl⟩,
    fun events => ⟨port_inv events, port_atPort events⟩, ⟨_, test_dframe_zero.choose_spec.1⟩, ⟨_, rfl⟩, ⟨_, rfl⟩, ⟨_, rfl⟩⟩

/-- HostSeesOnlyItsView: two states with different FB and CURSOR that the host cannot tell apart. -/
theorem witness_HostSeesOnlyItsView :
    AtPort (issue 0x60000000#32) ∧ SameToHost (issue 0x60000000#32) { issue 0x60000000#32 with fb := some [], cursor := 5 } ∧
      (∃ t, step (issue 0x60000000#32) = .next t) ∧
      ∃ t, step { issue 0x60000000#32 with fb := some [], cursor := 5 } = .next t :=
  ⟨port_atPort _, ⟨rfl, rfl, fun h => by cases h⟩, ⟨_, rfl⟩, ⟨_, rfl⟩⟩

/-- FramebufferWrittenWhole: a latch, a reset, another command, and the ends of the latched buffer. -/
theorem witness_FramebufferWrittenWhole :
    (∃ t, step (port [.command 0x40000000#32 zeroFrame]) = .next t) ∧ (∃ t, step (port [.reset]) = .next t) ∧
      (∃ t, step (issue 0x60000000#32) = .next t) ∧ zeroFrame.length = 8192 ∧ 0 < zeroFrame.length ∧
      8191 < zeroFrame.length := by
  have h : zeroFrame.length = 8192 := List.length_replicate
  exact ⟨⟨_, test_dframe_zero.choose_spec.1⟩, ⟨_, rfl⟩, ⟨_, rfl⟩, h, by omega, by omega⟩

/-- AddressWordFields, InverseBitFields, MapperRoundTrip, MapperBijection: the first and the last valid address, and the
last before a hole. -/
theorem witness_valid_addresses :
    isValidAddress 0 = true ∧ isValidAddress 0x77 = true ∧ isValidAddress 0x1FF7 = true ∧
      inverse 0x1FF7 = inverse 0x1FF7 := by decide

/-- LegalWordsMatchOneRow: a legal word, an OP at each end of the illegal ranges, and a word no row matches. -/
theorem witness_LegalWordsMatchOneRow :
    decode 0x60000000#32 = .instr .rdstat ∧ slice 0x00000000#32 31 28 = 0 ∧ slice 0x70000000#32 31 28 = 7 ∧
      slice 0xFFFFFFFF#32 31 28 = 15 ∧ ∀ row ∈ opcodeTable, row.holds 0x10000200#32 = false := by decide

/-- DecodeOfEncode: every command at the largest operands its fields admit. -/
theorem witness_DecodeOfEncode :
    Instr.wf (.fwd 511 255) = true ∧ Instr.wf (.inv 0xFFFF) = true ∧ Instr.wf (.expand 0xFF) = true ∧
      Instr.wf .dframe = true ∧ Instr.wf (.rdpix 1023 255) = true ∧ Instr.wf .rdstat = true := by decide

/-- EncodeOfDecode: the largest legal word of each command. -/
theorem witness_EncodeOfDecode :
    decode 0x10FF01FF#32 = .instr (.fwd 511 255) ∧ decode 0x2000FFFF#32 = .instr (.inv 0xFFFF) ∧
      decode 0x300000FF#32 = .instr (.expand 0xFF) ∧ decode 0x40000000#32 = .instr .dframe ∧
      decode 0x50FF03FF#32 = .instr (.rdpix 1023 255) ∧ decode 0x60000000#32 = .instr .rdstat := by decide

/-- ResponseLayouts: each command with a response without an error. -/
theorem witness_ResponseLayouts :
    answer (exec (.fwd 279 191) State.reset) = some (0x1FF7, 0) ∧
      (answer (exec (.inv 0x1FF7) State.reset) = some (0x80BF0111, 0) ∧ inverse 0x1FF7 = some (273, 191)) ∧
      (answer (exec (.inv 0x78) State.reset) = some (0, 0) ∧ inverse 0x78 = none) ∧
      answer (exec (.expand 0xFF) State.reset) = some (0xFFFE, 0) ∧
      (∃ t, exec .dframe { State.reset with inbuf := zeroFrame } = .next t ∧ t.response = some ⟨0, 0⟩ ∧
        t.fb = some (Memory.ofBytes zeroFrame)) ∧
      answer (exec (.rdpix 559 191) onePixel) = some (0, 0) ∧ answer (exec .rdstat onePixel) = some (1, 0) :=
  ⟨by decide, by decide, by decide, by decide, dframe_answers zeroFrame_length, by decide +kernel, by decide +kernel⟩

/-- AssemblerWords: a line for each command, the last operands accepted, and coordinates just outside the domain. -/
theorem witness_AssemblerWords :
    assemble (.fwd 511 255) = some 0x10FF01FF#32 ∧ assemble (.inv 0xFFFF) = some 0x2000FFFF#32 ∧
      assemble (.expand 255) = some 0x300000FF#32 ∧ assemble (.rdpix 1023 255) = some 0x50FF03FF#32 ∧
      AsmLine.instr (.fwd 511 255) = some (.fwd 511 255) ∧ AsmLine.instr .dframe = some .dframe ∧
      assemble (.fwd 280 0) = some 0x10000118#32 ∧ assemble (.fwd 0 192) = some 0x10C00000#32 := by decide

/-- ForwardInterleaveSum, ForwardBitFields, MapperRoundTrip, InterleaveStrides, FwdCompletes: the corner coordinate, the
first ones outside, two x of one byte column, and a line of each kind of stride. -/
theorem witness_coordinates :
    279 ≤ 279 ∧ 191 ≤ 191 ∧ 280 > 279 ∧ 192 > 191 ∧ 13 / 7 = 7 / 7 ∧ 0 % 8 ≠ 7 ∧ (7 % 8 = 7 ∧ 7 % 64 ≠ 63) ∧
      (127 % 64 = 63 ∧ 127 < 191) ∧ 273 ≤ 279 ∧ 38 ≤ 38 ∧ 39 ≤ 39 := by decide

/-- AddressClassification: the first and last hole of a block, the last hole, and the first address above FB. -/
theorem witness_AddressClassification :
    isHole 0x78 = true ∧ isHole 0x7F = true ∧ isHole 0x1FFF = true ∧ inverse 0x2000 = none ∧ isHole 0x2000 = false ∧
      0xFFFF % 0x80 ≥ 0x78 := by decide

/-- FwdCommandWord, InvCommandWord, ExpandCommandWord, RdpixCommandWord, DframeCommandWord, RdstatCommandWord,
PureCommandsIgnoreState, ErrorsPerCommand: a word of each OP with and without reserved bits, in and out of its domain. -/
theorem witness_command_words :
    (slice 0x10A2004D#32 31 28 = 1 ∧ slice 0x10000118#32 31 28 = 1 ∧ slice 0x11000000#32 27 24 ≠ 0) ∧
      (slice 0x20000A5B#32 31 28 = 2 ∧ slice 0x20010000#32 27 16 ≠ 0) ∧
      (slice 0x300000FF#32 31 28 = 3 ∧ slice 0x30000100#32 27 8 ≠ 0) ∧
      (slice 0x40000000#32 31 28 = 4 ∧ slice 0x40000000#32 27 0 = 0 ∧ slice 0x40000001#32 27 0 ≠ 0) ∧
      (slice 0x50BF022F#32 31 28 = 5 ∧ slice 0x50000230#32 9 0 > 559 ∧ slice 0x50000400#32 15 10 ≠ 0) ∧
      (slice 0x60000000#32 31 28 = 6 ∧ slice 0x60000001#32 27 0 ≠ 0) ∧
      ((expand 0x80).1 = 1 ∧ (expand 0x7F).1 = 0) := by decide

/-- RdpixCommandWord, RdstatCommandWord, DframeCommandWord: buffers of 8192 zero bytes and of 4096 bytes, and DFRAME with
them; a state at the port. -/
theorem witness_frame_commands :
    ({ State.reset with inbuf := zeroFrame } : State).inbuf = List.replicate 8192 0 ∧
      (∃ t, runCommand 0x40000000#32 { State.reset with inbuf := zeroFrame } = .next t) ∧
      (List.replicate 4096 (0 : Byte)).length = 4096 ∧
      (∃ t, runCommand 0x40000000#32 { State.reset with inbuf := List.replicate 4096 0 } = .next t) ∧
      AtPort State.reset ∧ ∃ t, exec .rdstat State.reset = .next t ∧ t.response = some ⟨0, 0⟩ := by
  refine ⟨rfl, ⟨_, (dframe_answers zeroFrame_length).choose_spec.1⟩, List.length_replicate, ?_, port_atPort [],
    ⟨_, rfl, rfl⟩⟩
  exact dframe_rejects (by rw [List.length_replicate]; omega)

/-- ColumnsOfOneByte: the first and the last byte that writes. -/
theorem witness_ColumnsOfOneByte : inverse 0 = some (0, 0) ∧ inverse 0x1FF7 = some (273, 191) := by decide

/-- ExpandLanes: two bytes with one bit 7 and a common lane; ExpandWindow: the ends of the window. -/
theorem witness_ExpandLanes :
    (0x81 : Byte).getLsbD 7 = (0xFF : Byte).getLsbD 7 ∧ (0x81 : Byte).getLsbD 0 = (0xFF : Byte).getLsbD 0 ∧ 6 ≤ 6 ∧
      0 < 15 ∧ 14 < 15 := by decide

/-- WrittenColumnRange: a byte that writes column 560, and one that writes column 0. -/
theorem witness_WrittenColumnRange :
    (∃ w ∈ byteWrites [(0x27, 0xC0#8)] (forward (7 * 39) 0), w.col = 560) ∧
      ∃ w ∈ byteWrites [] (forward (7 * 0) 191), w.col = 0 := by decide

/-- RasterWriteCell, WriteGroupColumns: a canonical raster that is not clear, cells at the ends of the range and outside,
and an order of the 14 writes that is not the order of R59. -/
theorem witness_raster_writes :
    Raster.wf [(0, 2#560), (191, 1#560)] = true ∧ (191 ≤ 191 ∧ 559 ≤ 559) ∧ ¬(0 ≤ 191 ∧ 560 ≤ 559) ∧
      ¬(192 ≤ 191 ∧ 0 ≤ 559) ∧ (groupWrites 191 273 0xC0).reverse.Perm (groupWrites 191 273 0xC0) ∧
      ⟨0, 560, true⟩ ∈ byteWrites [(0x27, 0xC0#8)] 0x27 := by
  refine ⟨by decide +kernel, by decide, by decide, by decide, List.reverse_perm _, by decide⟩

/-- RdpixCompletes: DONE and the last cell. -/
theorem witness_RdpixCompletes : finished.status = .done ∧ 559 ≤ 559 ∧ 191 ≤ 191 := ⟨rfl, by decide, by decide⟩

/-- PassStepEffect, PassRunsEveryAddress: the first step, the last one, a hole, a valid byte, and where none runs. -/
theorem witness_pass_steps :
    ((midPass 0).fb = some [] ∧ (midPass 0).status = .running ∧ (midPass 0).cursor = 0 ∧
        inverse (midPass 0).cursor.toNat = some (0, 0)) ∧
      ((midPass 8191).cursor.toNat ≤ 8191 ∧ inverse (midPass 8191).cursor.toNat = none) ∧
      ¬((midPass 8192).cursor.toNat ≤ 8191) ∧ finished.status ≠ .running := by decide

/-- AtomicFrameIsItsSteps, DframeCompletes, RasterClosedForm: a whole buffer, no reset next, and the frame's next state. -/
theorem witness_frames :
    (port [.command 0x60000000#32 []]).inbuf.length ≠ 8192 ∧
      ({ State.reset with inbuf := zeroFrame } : State).inbuf.length = 8192 ∧
      resetArrives { State.reset with inbuf := zeroFrame } = false ∧
      ∃ t, exec .dframe { State.reset with inbuf := zeroFrame } = .next t ∧ t.response = some ⟨0, 0⟩ ∧
        t.fb = some (Memory.ofBytes zeroFrame) :=
  ⟨by decide, List.length_replicate, rfl, dframe_answers zeroFrame_length⟩

/-- RasterClosedForm, OverlapLaterByteWins, UnwrittenAndDiscarded: bytes of line 0 for each of their cases. -/
theorem witness_lines :
    (lineByte [(0, 0xC0#8), (1, 0x80#8)] 0 0 = 0xC0 ∧ lineByte [(0, 0xC0#8), (1, 0x80#8)] 0 1 = 0x80) ∧
      (lineByte [(0, 0xC0#8)] 0 0 = 0xC0 ∧ lineByte [(0, 0xC0#8)] 0 1 = 0x00) ∧
      (shiftBit (lineByte [(0x26, 0xC0#8)] 0 38) = true ∧ shiftBit (lineByte [(0x26, 0xC0#8)] 0 39) = false) ∧
      shiftBit (lineByte [(0x1FF7, 0xC0#8)] 191 39) = true := by decide

/-- OverlapLaterByteWins: the cell written twice. UnwrittenAndDiscarded: the frame of 0xFF bytes (P4). -/
theorem witness_overlap_and_full_frame :
    (writesTo 0 14 (passWrites [(0, 0xC0#8)])).length ≥ 2 ∧
      ∀ a, a < 8192 → Memory.read (Memory.ofBytes (List.replicate 8192 0xFF)) a = 0xFF := by
  constructor
  · rw [passWrites, writesTo_order _ keepsLines_range (by omega) (by omega)]
    decide
  · intro a ha
    rw [Memory.read_ofBytes, List.getElem?_replicate, if_pos ha]
    rfl

/-- HolesDoNotMatter: two frames that differ at the last address, a hole. -/
theorem witness_HolesDoNotMatter :
    (zeroFrame.set 8191 1).length = 8192 ∧ (∀ a, isValidAddress a = true → zeroFrame[a]? = (zeroFrame.set 8191 1)[a]?) ∧
      isHole 8191 = true ∧ (∃ t, exec .dframe { State.reset with inbuf := zeroFrame } = .next t) ∧
      ∃ t, exec .dframe { State.reset with inbuf := zeroFrame.set 8191 1 } = .next t := by
  have hl : (zeroFrame.set 8191 1).length = 8192 := by rw [List.length_set]; exact List.length_replicate
  refine ⟨hl, fun a ha => ?_, by decide, ⟨_, (dframe_answers zeroFrame_length).choose_spec.1⟩,
    ⟨_, (dframe_answers hl).choose_spec.1⟩⟩
  rw [List.getElem?_set_ne]
  rintro rfl
  exact absurd ha (by decide)

/-- ErrorCauses, ErrorsChangeNothing, EveryCommandAnswers: a response with each error code. -/
theorem witness_errors :
    answer (runCommand 0x70000000#32 State.reset) = some (0, 1) ∧
      answer (runCommand 0x10000118#32 State.reset) = some (0, 2) ∧
      answer (runCommand 0x50000230#32 onePixel) = some (0, 2) ∧
      answer (runCommand 0x40000000#32 State.reset) = some (0, 3) ∧
      answer (runCommand 0x50000000#32 State.reset) = some (0, 4) ∧
      answer (runCommand 0x60000000#32 State.reset) = some (0, 0) := by decide

/-- ResetAtAnyTime: a reset in the middle of a pass, and one that overtakes a DFRAME. -/
theorem witness_ResetAtAnyTime :
    ({ midPass 5 with pending := [.reset] } : State).pending = [.reset] ∧
      AtPort (port [.resetDuring 0x40000000#32 zeroFrame 5]) ∧
      (port [.resetDuring 0x40000000#32 zeroFrame 5]).pending = [.resetDuring 0x40000000#32 zeroFrame 5] :=
  ⟨rfl, port_atPort _, rfl⟩

/-- NoRasterBeforeAFrame: two commands, one a rejected DFRAME, run from reset. -/
theorem witness_NoRasterBeforeAFrame :
    (∀ w b, HostEvent.command w b ∈ [HostEvent.command 0x60000000#32 [], .command 0x40000000#32 [0]] →
        ¬(w = 0x40000000#32 ∧ b.length = 8192)) ∧
      ∃ t, Host.Core.run core 2
        { State.reset with pending := [.command 0x60000000#32 [], .command 0x40000000#32 [0]] } = .next t := by
  refine ⟨?_, _, rfl⟩
  intro w b h
  simp only [List.mem_cons, HostEvent.command.injEq, List.not_mem_nil, or_false] at h
  rcases h with ⟨rfl, rfl⟩ | ⟨rfl, rfl⟩ <;> simp

/-- ReadAfterFrameSeesClosedForm: a frame and a read of its last cell. -/
theorem witness_ReadAfterFrameSeesClosedForm :
    AtPort (port [.command 0x40000000#32 zeroFrame, .command (encode (.rdpix 559 191)) []]) ∧ zeroFrame.length = 8192 ∧
      559 ≤ 559 ∧ 191 ≤ 191 :=
  ⟨port_atPort _, List.length_replicate, by decide, by decide⟩

/-- PassOrderFreedom: the upper half of the addresses before the lower half. -/
theorem witness_PassOrderFreedom :
    (List.range' 4096 4096 ++ List.range' 0 4096).Perm (List.range 8192) ∧
      ∀ y k, y ≤ 191 → k ≤ 38 →
        (List.range' 4096 4096 ++ List.range' 0 4096).idxOf (forward (7 * k) y) <
          (List.range' 4096 4096 ++ List.range' 0 4096).idxOf (forward (7 * (k + 1)) y) := by
  constructor
  · rw [List.range_eq_range']
    have : List.range' 0 8192 = List.range' 0 4096 ++ List.range' 4096 4096 :=
      (List.range'_append_1 (s := 0) (m := 4096) (n := 4096)).symm
    rw [this]
    exact List.perm_append_comm
  · intro y k hy hk
    have hi : ∀ s a, s ≤ a → a < s + 4096 → (List.range' s 4096).idxOf a = a - s := fun s a h1 h2 => by
      have := (List.nodup_range' (s := s) (n := 4096) (step := 1)).idxOf_getElem (a - s) (by simp; omega)
      rw [List.getElem_range'] at this
      rwa [show s + 1 * (a - s) = a by omega] at this
    have hlt := forward_lt (k := k) (by omega) hy
    have hlt' := forward_lt (k := k + 1) (by omega) hy
    have hlow : forward (7 * k) y % 0x80 ≤ 0x76 := by
      obtain ⟨g, r, o, hg, hr, ho, rfl⟩ := line_split hy
      rw [forward_split hr ho, show (0x400 * o + 0x80 * r + (0x28 * g + k)) % 0x80 = 0x28 * g + k by omega]
      omega
    rw [forward_succ] at hlt' ⊢
    by_cases h : 4096 ≤ forward (7 * k) y
    · rw [List.idxOf_append_of_mem (by simp [List.mem_range'_1]; omega),
        List.idxOf_append_of_mem (by simp [List.mem_range'_1]; omega), hi _ _ h (by omega), hi _ _ (by omega) (by omega)]
      omega
    · rw [List.idxOf_append_of_notMem (by simp [List.mem_range'_1]; omega),
        List.idxOf_append_of_notMem (by simp [List.mem_range'_1]; omega), hi 0 _ (by omega) (by omega),
        hi 0 _ (by omega) (by omega)]
      omega

/-- StepRunsDecodedCommand: a pending legal word with a buffer, and a table row's bits. -/
theorem witness_StepRunsDecodedCommand :
    AtPort (port [.command 0x40000000#32 zeroFrame]) ∧ decode 0x40000000#32 = .instr .dframe ∧
      decodeTableWord 32 0x40000000 = some .dframe ∧ decodeTableWord 32 0x50BF022F = some (.rdpix 559 191) :=
  ⟨port_atPort _, by decide, by decide, by decide⟩

/-- StepKeepsInvariant, InvariantStatesNeverStop: a state of the invariant at the port and one in the middle of a pass,
each with its step. -/
theorem witness_invariant_steps :
    (Inv (issue 0x60000000#32) ∧ ∃ t, step (issue 0x60000000#32) = .next t) ∧
      Inv (midPass 0x77) ∧ ∃ t, step (midPass 0x77) = .next t :=
  ⟨⟨port_inv _, _, rfl⟩, midPass_inv (by omega), _, rfl⟩

/-- InvariantRasterIsClosedForm: a finished frame. -/
theorem witness_InvariantRasterIsClosedForm :
    Inv finished ∧ AtPort finished ∧ finished.fb = some [] :=
  ⟨finished_inv, by simp [AtPort, finished], rfl⟩

/-- NotReadyIsKeptUntilAFrame: a DFRAME one byte short of a frame is pending, after reset and after a size error. -/
theorem witness_NotReadyIsKeptUntilAFrame :
    NoFrameYet (port [.command 0x40000000#32 (List.replicate 8191 0)]) ∧
      NoFrameYet { port [] with status := .sizeError } ∧
      ∃ t, step (port [.command 0x40000000#32 (List.replicate 8191 0)]) = .next t := by
  refine ⟨⟨.inl rfl, fun w b h => ?_⟩, ⟨.inr rfl, fun w b h => by simp [port] at h⟩, ?_⟩
  · simp only [port, List.mem_cons, HostEvent.command.injEq, List.not_mem_nil, or_false] at h
    rw [h.2, List.length_replicate]
    omega
  · exact dframe_rejected (by rw [List.length_replicate]; omega)

end Sys2Proof.Tests
end

section
/-! The obligations of 10_state.md: what the host sees, the invariant, STATE, CURSOR and the cleared raster. -/
namespace Sys2Proof.Machine

/-! ## The step at the port, one equation per host event -/

/-- With nothing pending the block waits (R81). -/
theorem step_port_idle {s : State} (h : AtPort s) (hp : s.pending = []) : step s = .next (waitForHost s) := by
  rw [step_port h, hostStep, hp]

/-- A pending command word is run with its buffer on the data port (R35). -/
theorem step_port_command {s : State} (h : AtPort s) {w : Word} {b : List Byte} {rest : List HostEvent}
    (hp : s.pending = .command w b :: rest) :
    step s = runCommand w { s with pending := rest, inbuf := b } := by
  rw [step_port h, hostStep, hp]
  rfl

/-- A command that a reset overtakes leaves the reset state (R82). -/
theorem step_port_resetDuring {s : State} (h : AtPort s) {w : Word} {b : List Byte} {n : Nat} {rest : List HostEvent}
    (hp : s.pending = .resetDuring w b n :: rest) :
    step s = .next { State.reset with pending := rest } := by
  rw [step_port h, hostStep, hp]
  exact congrArg _ (abandonCommand_eq w n _)

/-- DFRAME's word with a whole frame on the data port (R65). -/
theorem runCommand_dframe_frame {s : State} (hl : s.inbuf.length = 8192) :
    runCommand 0x40000000#32 s = .next
      { s with
        fb := some (Memory.ofBytes s.inbuf)
        raster := rasterAfter (Memory.ofBytes s.inbuf) 8192
        cursor := 8192
        status := .done
        response := some ⟨0, 0⟩ } := by
  simpa [hl] using runCommand_cases 0x40000000#32 s

/-- DFRAME's word with a buffer of another length (R66). -/
theorem runCommand_dframe_reject {s : State} (hl : s.inbuf.length ≠ 8192) :
    runCommand 0x40000000#32 s = .next { s with status := .sizeError, response := some ⟨0, 3⟩ } := by
  simpa [hl] using runCommand_cases 0x40000000#32 s

/-! ## What the host sees -/

/-- A command other than DFRAME reads nothing that the host cannot see: it gives both states one response. -/
theorem exec_response_of_sameToHost {i : Instr} (hi : i ≠ .dframe) {s t : State} (h : SameToHost s t) :
    ∃ r, exec i s = .next { s with response := some r } ∧ exec i t = .next { t with response := some r } := by
  obtain ⟨hstatus, -, hraster⟩ := h
  cases i with
  | dframe => exact absurd rfl hi
  | fwd x y =>
    simp only [exec, execFwd]
    split <;> exact ⟨_, rfl, rfl⟩
  | inv a => exact ⟨_, rfl, rfl⟩
  | expand v => exact ⟨_, rfl, rfl⟩
  | rdpix col row =>
    simp only [exec, execRdpix]
    by_cases hd : s.status = .done
    · have hd' : t.status = .done := hstatus ▸ hd
      by_cases hin : inRaster row col = true
      · simp only [if_pos hd, if_pos hd', if_pos hin, ← hraster hd row col hin]
        exact ⟨_, rfl, rfl⟩
      · simp only [if_pos hd, if_pos hd', if_neg hin]
        exact ⟨_, rfl, rfl⟩
    · have hd' : t.status ≠ .done := hstatus ▸ hd
      simp only [if_neg hd, if_neg hd']
      exact ⟨_, rfl, rfl⟩
  | rdstat =>
    refine ⟨⟨statusWord s.status, 0⟩, rfl, ?_⟩
    rw [hstatus]
    rfl

theorem runCommand_response_of_sameToHost {w : Word} (hw : w ≠ 0x40000000#32) {s t : State} (h : SameToHost s t) :
    ∃ r, runCommand w s = .next { s with response := some r } ∧
      runCommand w t = .next { t with response := some r } := by
  unfold runCommand
  cases hd : decode w with
  | illegal why => exact ⟨_, rfl, rfl⟩
  | instr i =>
    refine exec_response_of_sameToHost ?_ h
    rintro rfl
    exact hw ((decode_eq_dframe_iff w).1 hd)

/-- A command on one data port keeps two states that the host cannot tell apart alike. -/
theorem runCommand_sameToHost {w : Word} {s t s' t' : State} (h : SameToHost s t) (hb : s.inbuf = t.inbuf)
    (hs : runCommand w s = .next s') (ht : runCommand w t = .next t') :
    s'.response = t'.response ∧ SameToHost s' t' := by
  have hpending : s.pending = t.pending := h.2.1
  by_cases hw : w = 0x40000000#32
  · subst hw
    by_cases hl : s.inbuf.length = 8192
    · cases (runCommand_dframe_frame hl).symm.trans hs
      cases (runCommand_dframe_frame (hb ▸ hl)).symm.trans ht
      exact ⟨rfl, rfl, hpending, fun _ _ _ _ => by simp only [hb]⟩
    · cases (runCommand_dframe_reject hl).symm.trans hs
      cases (runCommand_dframe_reject (hb ▸ hl)).symm.trans ht
      exact ⟨rfl, rfl, hpending, by rintro ⟨⟩⟩
  · obtain ⟨r, hs₀, ht₀⟩ := runCommand_response_of_sameToHost hw h
    cases hs₀.symm.trans hs
    cases ht₀.symm.trans ht
    exact ⟨rfl, h⟩

/-- Settles O4, by the host's next event: the port takes the same one in both states. -/
theorem hostSeesOnlyItsView : Obligations.HostSeesOnlyItsView := by
  intro s t s' t' hport h hs ht
  obtain ⟨hstatus, hpending, hraster⟩ := h
  have hport' : AtPort t := fun e => hport (hstatus.trans e)
  cases hp : s.pending with
  | nil =>
    cases (step_port_idle hport hp).symm.trans hs
    cases (step_port_idle hport' (hpending ▸ hp)).symm.trans ht
    exact ⟨rfl, hstatus, hpending, hraster⟩
  | cons e rest =>
    have hp' : t.pending = e :: rest := hpending ▸ hp
    cases e with
    | command w b =>
      rw [step_port_command hport hp] at hs
      rw [step_port_command hport' hp'] at ht
      have h' : SameToHost { s with pending := rest, inbuf := b } { t with pending := rest, inbuf := b } :=
        ⟨hstatus, rfl, hraster⟩
      exact runCommand_sameToHost h' rfl hs ht
    | reset =>
      cases (step_reset hp).symm.trans hs
      cases (step_reset hp').symm.trans ht
      exact ⟨rfl, rfl, rfl, fun _ _ _ _ => rfl⟩
    | resetDuring w b n =>
      cases (step_port_resetDuring hport hp).symm.trans hs
      cases (step_port_resetDuring hport' hp').symm.trans ht
      exact ⟨rfl, rfl, rfl, fun _ _ _ _ => rfl⟩

/-! ## The invariant -/

/-- The invariant says nothing of the port. -/
theorem Inv.with_port {s : State} (h : Inv s) (pending : List HostEvent) (inbuf : List Byte)
    (response : Option Response) :
    Inv { s with pending := pending, inbuf := inbuf, response := response } :=
  ⟨h.fbCanonical, h.rasterCanonical, h.beforeFirstFrame, h.cursorInRange, h.rasterOfFrame, h.passComplete⟩

/-- The invariant of a state before the first latch. -/
theorem Inv.of_noFrame {s : State} (hfb : s.fb = none) (hraster : s.raster = rasterClear) (hcursor : s.cursor = 0)
    (hstatus : s.status = .idle ∨ s.status = .sizeError) : Inv s where
  fbCanonical := by simp [hfb]
  rasterCanonical := by rw [hraster]; exact rasterClear_wf
  beforeFirstFrame := fun _ => ⟨hraster, hcursor, hstatus⟩
  cursorInRange := by simp [hcursor]
  rasterOfFrame := by simp [hfb]
  passComplete := by simp [hfb]

/-- The invariant of a state with a frame, inside its pass or after it. -/
theorem Inv.of_frame {s : State} {m : Memory} (hfb : s.fb = some m) (hm : Memory.wf m = true)
    (hcursor : s.cursor.toNat ≤ 8192) (hraster : s.raster = rasterAfter m s.cursor.toNat) (hidle : s.status ≠ .idle)
    (hend : AtPort s → s.cursor.toNat = 8192) : Inv s where
  fbCanonical := by rintro _ e; cases hfb.symm.trans e; exact hm
  rasterCanonical := by rw [hraster]; exact rasterAfter_wf m _
  beforeFirstFrame := by simp [hfb]
  cursorInRange := hcursor
  rasterOfFrame := by rintro _ e; cases hfb.symm.trans e; exact hraster
  passComplete := fun _ _ => ⟨hidle, hend⟩

theorem reset_inv (pending : List HostEvent) : Inv { State.reset with pending := pending } :=
  .of_noFrame rfl rfl rfl (.inl rfl)

/-- A rejected buffer leaves FB, RASTER and CURSOR alone, so the last finished frame stays (R66). -/
theorem Inv.rejectFrame {s : State} (h : Inv s) (hport : AtPort s) : Inv (rejectFrame s) := by
  cases hfb : s.fb with
  | none =>
    obtain ⟨hraster, hcursor, -⟩ := h.beforeFirstFrame hfb
    exact .of_noFrame hfb hraster hcursor (.inr rfl)
  | some m =>
    exact .of_frame hfb (h.fbCanonical m hfb) h.cursorInRange (h.rasterOfFrame m hfb) (by simp)
      fun _ => (h.passComplete m hfb).2 hport

theorem runCommand_keeps_inv {w : Word} {s t : State} (h : Inv s) (hport : AtPort s)
    (ht : runCommand w s = .next t) : Inv t := by
  obtain ⟨-, r, hr⟩ | ⟨-, -, hr⟩ | ⟨-, hl, hr⟩ := runCommand_cases w s
  · cases hr.symm.trans ht
    exact h.with_port _ _ _
  · cases hr.symm.trans ht
    exact (h.rejectFrame hport).with_port _ _ _
  · cases hr.symm.trans ht
    exact .of_frame rfl (Memory.ofBytes_wf _ hl) (by simp) (by simp) (by simp) (by simp)

/-- A pass step adds the byte at CURSOR to the raster; the end of the pass finds CURSOR at 8192 (R63, R64). -/
theorem sequencerStep_keeps_inv {s t : State} (h : Inv s) (hrun : s.status = .running)
    (ht : sequencerStep s = .next t) : Inv t := by
  obtain ⟨m, hfb, ⟨hc, rfl⟩ | ⟨hc, rfl⟩⟩ := sequencerStep_cases ht
  · exact .of_frame hfb (h.fbCanonical m hfb) h.cursorInRange (h.rasterOfFrame m hfb) (by simp) fun _ => hc
  · rw [passStep_running hfb hrun hc]
    have hsucc := cursor_succ hc
    refine .of_frame hfb (h.fbCanonical m hfb) ?_ ?_ ?_ ?_
    · simp only [hsucc]
      omega
    · simp only [hsucc, rasterAfter_succ, h.rasterOfFrame m hfb]
    · simp [hrun]
    · exact fun hport => absurd hrun hport

/-- Settles O57, by the cases of the step. -/
theorem stepKeepsInvariant : Obligations.StepKeepsInvariant := by
  intro s t h hstep
  obtain ⟨rest, -, rfl⟩ | ⟨hrun, -, hseq⟩ | ⟨-, -, rfl⟩ | ⟨-, w, b, n, rest, -, rfl⟩ | ⟨hport, w, b, rest, -, hcmd⟩ :=
    step_cases hstep
  · exact reset_inv rest
  · exact sequencerStep_keeps_inv h hrun hseq
  · exact h.with_port _ _ _
  · exact reset_inv rest
  · exact runCommand_keeps_inv (h.with_port rest b s.response) hport hcmd

/-! ## STATE -/

/-- STATE after a command: DFRAME alone sets it (R12). -/
theorem runCommand_status {w : Word} {s t : State} (ht : runCommand w s = .next t) :
    t.status = if w = 0x40000000#32 then (if s.inbuf.length = 8192 then .done else .sizeError) else s.status := by
  obtain ⟨hw, r, hr⟩ | ⟨hw, hl, hr⟩ | ⟨hw, hl, hr⟩ := runCommand_cases w s <;> cases hr.symm.trans ht
  · rw [if_neg hw]
  · rw [if_pos hw, if_neg hl]
  · rw [if_pos hw, if_pos hl]

/-- STATE inside a pass: RUNNING until CURSOR has reached 8192, then DONE (R64). -/
theorem sequencerStep_status {s t : State} (hrun : s.status = .running) (ht : sequencerStep s = .next t) :
    t.status = if s.cursor.toNat = 8192 then .done else .running := by
  obtain ⟨m, -, ⟨hc, rfl⟩ | ⟨hc, rfl⟩⟩ := sequencerStep_cases ht
  · rw [if_pos hc]
  · rw [if_neg (Nat.ne_of_lt hc), ← hrun]
    exact passStep_status s

/-- No command ends with its pass still running (R12). -/
theorem runCommand_atPort {w : Word} {s t : State} (hport : AtPort s) (ht : runCommand w s = .next t) : AtPort t := by
  rw [AtPort, runCommand_status ht]
  split
  · split <;> simp
  · exact hport

theorem step_atPort {s t : State} (hport : AtPort s) (hstep : step s = .next t) : AtPort t := by
  obtain ⟨rest, -, rfl⟩ | ⟨hrun, -, -⟩ | ⟨-, -, rfl⟩ | ⟨-, w, b, n, rest, -, rfl⟩ | ⟨-, w, b, rest, -, hcmd⟩ :=
    step_cases hstep
  · simp [AtPort, State.reset]
  · exact absurd hrun hport
  · exact hport
  · simp [AtPort, State.reset]
  · exact runCommand_atPort (by exact hport) hcmd

/-- Settles O1, by the cases of the step. -/
theorem statusTransitions : Obligations.StatusTransitions := by
  refine ⟨fun s t hstep => ?_, fun s => ⟨rfl, rfl⟩, fun s t => step_atPort⟩
  obtain ⟨rest, hp, rfl⟩ | ⟨hrun, hreset, hseq⟩ | ⟨hport, hp, rfl⟩ | ⟨hport, w, b, n, rest, hp, rfl⟩ |
    ⟨hport, w, b, rest, hp, hcmd⟩ := step_cases hstep
  · simp only [hp]
    rfl
  · split
    · next rest hp => simp [resetArrives, hp] at hreset
    · rw [if_pos hrun]
      exact sequencerStep_status hrun hseq
  · simp only [hp]
    rw [if_neg hport]
    rfl
  · simp only [hp]
    rw [if_neg hport]
    rfl
  · simp only [hp]
    rw [if_neg hport]
    exact runCommand_status hcmd

/-! ## CURSOR -/

/-- CURSOR after a command: a DFRAME with a frame leaves it at the end of its pass, no other command moves it (R13). -/
theorem runCommand_cursor {w : Word} {s t : State} (ht : runCommand w s = .next t) :
    t.cursor = if w = 0x40000000#32 ∧ s.inbuf.length = 8192 then 8192 else s.cursor := by
  obtain ⟨hw, r, hr⟩ | ⟨hw, hl, hr⟩ | ⟨hw, hl, hr⟩ := runCommand_cases w s <;> cases hr.symm.trans ht
  · rw [if_neg fun e => hw e.1]
  · rw [if_neg fun e => hl e.2]
  · rw [if_pos ⟨hw, hl⟩]

/-- CURSOR inside a pass: one byte further, until it stands at 8192 (R13, R63). -/
theorem sequencerStep_cursor {s t : State} (hrun : s.status = .running) (ht : sequencerStep s = .next t) :
    t.cursor.toNat = if s.cursor.toNat = 8192 then 8192 else s.cursor.toNat + 1 := by
  obtain ⟨m, hfb, ⟨hc, rfl⟩ | ⟨hc, rfl⟩⟩ := sequencerStep_cases ht
  · rw [if_pos hc]
    exact hc
  · rw [if_neg (Nat.ne_of_lt hc), passStep_running hfb hrun hc]
    exact cursor_succ hc

/-- Settles O2, by the invariant for the range and by the step's equation for each event. -/
theorem cursorOnlyMovesInPass : Obligations.CursorOnlyMovesInPass := by
  intro s t h hstep
  refine ⟨(stepKeepsInvariant s t h hstep).cursorInRange, ?inPass, ?command, ?idle, ?resetDuring, ?reset⟩
  case inPass =>
    intro hreset hrun
    exact sequencerStep_cursor hrun ((step_running hrun hreset).symm.trans hstep)
  case command =>
    intro hport w b rest hp
    exact runCommand_cursor ((step_port_command hport hp).symm.trans hstep)
  case idle =>
    intro hport hp
    cases (step_port_idle hport hp).symm.trans hstep
    rfl
  case resetDuring =>
    intro hport w b n rest hp
    cases (step_port_resetDuring hport hp).symm.trans hstep
    rfl
  case reset =>
    rintro ⟨rest, hp⟩
    cases (step_reset hp).symm.trans hstep
    rfl

/-! ## The cleared raster -/

/-- Settles O3: the clear reads off everywhere, and reset and the start of a frame both leave it. -/
theorem rasterStartsOff : Obligations.RasterStartsOff :=
  ⟨rasterRead_clear, rfl, fun _ row col => ⟨rasterRead_clear row col, rasterRead_clear row col⟩⟩

end Sys2Proof.Machine
end

section
/-! The obligation of 20_memory.md: FB is written only as a whole. -/
namespace Sys2Proof.Machine

/-! ## FB -/

/-- FB after a command: a DFRAME with a frame latches the whole buffer, no other command writes FB (R20, R65). -/
theorem runCommand_fb {w : Word} {s t : State} (ht : runCommand w s = .next t) :
    t.fb = if w = 0x40000000#32 ∧ s.inbuf.length = 8192 then some (Memory.ofBytes s.inbuf) else s.fb := by
  obtain ⟨hw, r, hr⟩ | ⟨hw, hl, hr⟩ | ⟨hw, hl, hr⟩ := runCommand_cases w s <;> cases hr.symm.trans ht
  · rw [if_neg fun e => hw e.1]
  · rw [if_neg fun e => hl e.2]
  · rw [if_pos ⟨hw, hl⟩]

/-- Inside a pass FB is read-only (R20). -/
theorem sequencerStep_fb {s t : State} (ht : sequencerStep s = .next t) : t.fb = s.fb := by
  obtain ⟨m, -, ⟨-, rfl⟩ | ⟨-, rfl⟩⟩ := sequencerStep_cases ht
  · rfl
  · exact passStep_fb s

/-- Every address of the buffer holds the buffer's byte after the latch. -/
theorem Memory.read_ofBytes_of_lt {bytes : List Byte} {a : Nat} (h : a < bytes.length) :
    Memory.read (Memory.ofBytes bytes) a = bytes[a] := by
  rw [Memory.read_ofBytes, List.getElem?_eq_getElem h, Option.getD_some]

/-- Settles O5, by the cases of the step: the latch and reset are the only ones that touch FB. -/
theorem framebufferWrittenWhole : Obligations.FramebufferWrittenWhole := by
  refine ⟨fun s t hstep => ?_, passSteps_fb, fun buffer a h _ => Memory.read_ofBytes_of_lt h⟩
  obtain ⟨rest, hp, rfl⟩ | ⟨-, -, hseq⟩ | ⟨-, -, rfl⟩ | ⟨-, w, b, n, rest, hp, rfl⟩ | ⟨-, w, b, rest, hp, hcmd⟩ :=
    step_cases hstep
  · exact .inr (.inl ⟨rfl, rest, .inl hp⟩)
  · exact .inl (sequencerStep_fb hseq)
  · exact .inl rfl
  · exact .inr (.inl ⟨rfl, rest, .inr ⟨w, b, n, hp⟩⟩)
  · have hfb := runCommand_fb hcmd
    by_cases hlatch : w = 0x40000000#32 ∧ b.length = 8192
    · obtain ⟨rfl, hl⟩ := hlatch
      exact .inr (.inr ⟨b, rest, hp, hl, hfb.trans (if_pos ⟨rfl, hl⟩)⟩)
    · exact .inl (hfb.trans (if_neg hlatch))

end Sys2Proof.Machine
end

section
/-! The obligations of 30_encoding.md about words: the rows of the opcode table, the encoder and the decoder. -/
namespace Sys2Proof.Machine

/-! ## Command words and the rows of the opcode table (R37, R38) -/

theorem decode_of_fwd_row {w : Word} (h : OpcodeRow.fwd.holds w = true) :
    decode w = .instr (.fwd (slice w 8 0) (slice w 23 16)) := by
  obtain ⟨hop, hreserved⟩ := (fwd_row_holds_iff w).1 h
  simp only [decode, hop]
  exact if_pos hreserved

theorem decode_of_inv_row {w : Word} (h : OpcodeRow.inv.holds w = true) :
    decode w = .instr (.inv (slice w 15 0)) := by
  obtain ⟨hop, hreserved⟩ := (inv_row_holds_iff w).1 h
  simp only [decode, hop]
  exact if_pos hreserved

theorem decode_of_expand_row {w : Word} (h : OpcodeRow.expand.holds w = true) :
    decode w = .instr (.expand (BitVec.ofNat 8 (slice w 7 0))) := by
  obtain ⟨hop, hreserved⟩ := (expand_row_holds_iff w).1 h
  simp only [decode, hop]
  exact if_pos hreserved

theorem decode_of_dframe_row {w : Word} (h : OpcodeRow.dframe.holds w = true) : decode w = .instr .dframe := by
  obtain ⟨hop, hreserved⟩ := (dframe_row_holds_iff w).1 h
  simp only [decode, hop]
  exact if_pos hreserved

theorem decode_of_rdpix_row {w : Word} (h : OpcodeRow.rdpix.holds w = true) :
    decode w = .instr (.rdpix (slice w 9 0) (slice w 23 16)) := by
  obtain ⟨hop, hreserved⟩ := (rdpix_row_holds_iff w).1 h
  simp only [decode, hop]
  exact if_pos hreserved

theorem decode_of_rdstat_row {w : Word} (h : OpcodeRow.rdstat.holds w = true) : decode w = .instr .rdstat := by
  obtain ⟨hop, hreserved⟩ := (rdstat_row_holds_iff w).1 h
  simp only [decode, hop]
  exact if_pos hreserved

/-- Every word of a row is legal. -/
theorem decode_of_row {row : OpcodeRow} (hrow : row ∈ opcodeTable) {w : Word} (h : row.holds w = true) :
    ∃ i, decode w = .instr i := by
  simp only [opcodeTable, List.mem_cons, List.not_mem_nil, or_false] at hrow
  obtain rfl | rfl | rfl | rfl | rfl | rfl := hrow
  · exact ⟨_, decode_of_fwd_row h⟩
  · exact ⟨_, decode_of_inv_row h⟩
  · exact ⟨_, decode_of_expand_row h⟩
  · exact ⟨_, decode_of_dframe_row h⟩
  · exact ⟨_, decode_of_rdpix_row h⟩
  · exact ⟨_, decode_of_rdstat_row h⟩

theorem row_mem_opcodeTable (i : Instr) : i.row ∈ opcodeTable := by
  cases i <;> simp [Instr.row, opcodeTable]

/-- A legal word is one of its command's row. -/
theorem row_holds_of_decode {w : Word} {i : Instr} (h : decode w = .instr i) : i.row.holds w = true := by
  obtain ⟨rfl, hfields⟩ | ⟨rfl, hfields⟩ | ⟨rfl, hfields⟩ | ⟨rfl, hfields⟩ | ⟨rfl, hfields⟩ | ⟨rfl, hfields⟩ :=
    decode_cases h
  · exact (fwd_row_holds_iff w).2 hfields
  · exact (inv_row_holds_iff w).2 hfields
  · exact (expand_row_holds_iff w).2 hfields
  · exact (dframe_row_holds_iff w).2 hfields
  · exact (rdpix_row_holds_iff w).2 hfields
  · exact (rdstat_row_holds_iff w).2 hfields

/-- Every mask covers OP, so a row fixes the OP of its words. -/
theorem op_of_row_holds {row : OpcodeRow} (hrow : row ∈ opcodeTable) {w : Word} (h : row.holds w = true) :
    slice w 31 28 = slice row.pattern 31 28 := by
  have hmask : ∀ row ∈ opcodeTable, slice row.mask 31 28 = 15 := by decide
  rw [← (OpcodeRow.holds_iff row w).1 h]
  exact (slice_and_ones (hmask row hrow)).symm

/-- The rows have different OPs, so a word that is in one row is in no other. -/
theorem filter_rows_eq_singleton {row : OpcodeRow} (hrow : row ∈ opcodeTable) {w : Word} (h : row.holds w = true) :
    opcodeTable.filter (·.holds w) = [row] := by
  have hop : ∀ row ∈ opcodeTable, ∀ row' ∈ opcodeTable,
      slice row'.pattern 31 28 = slice row.pattern 31 28 → row' = row := by decide
  have hself : ∀ row ∈ opcodeTable, opcodeTable.filter (· == row) = [row] := by decide
  rw [← hself row hrow]
  refine List.filter_congr fun row' hrow' => ?_
  rw [Bool.eq_iff_iff, beq_iff_eq]
  constructor
  · intro h'
    exact hop row hrow row' hrow' ((op_of_row_holds hrow' h').symm.trans (op_of_row_holds hrow h))
  · rintro rfl
    exact h

/-- A word of no row is illegal. -/
theorem decode_of_no_row {w : Word} (h : ∀ row ∈ opcodeTable, row.holds w = false) :
    ∃ why, decode w = .illegal why := by
  cases hd : decode w with
  | illegal why => exact ⟨why, rfl⟩
  | instr i => 
    have hholds := row_holds_of_decode hd
    rw [h i.row (row_mem_opcodeTable i)] at hholds
    cases hholds

theorem runCommand_of_instr {w : Word} {i : Instr} (h : decode w = .instr i) (s : State) :
    runCommand w s = exec i s := by
  rw [runCommand, h]

/-- The answer to a word of no row (R38). -/
theorem runCommand_of_no_row {w : Word} (h : ∀ row ∈ opcodeTable, row.holds w = false) (s : State) :
    runCommand w s = .next { s with response := some ⟨0, 1⟩ } := by
  obtain ⟨why, hd⟩ := decode_of_no_row h
  rw [runCommand, hd]
  rfl

/-- Settles O7: a legal word is in its command's row, two rows never share a word, and the rows have OPs 1 to 6. -/
theorem legalWordsMatchOneRow : Obligations.LegalWordsMatchOneRow := by
  refine ⟨fun w => ⟨?legal, ?oneRow⟩, fun w => ?atMostOne, fun w i => row_holds_of_decode, fun w s hop => ?badOp,
    fun w s h => runCommand_of_no_row h s⟩
  case legal =>
    rintro ⟨i, hd⟩
    rw [filter_rows_eq_singleton (row_mem_opcodeTable i) (row_holds_of_decode hd), List.length_singleton]
  case oneRow =>
    intro hlength
    obtain ⟨row, hfilter⟩ := List.length_eq_one_iff.1 hlength
    obtain ⟨hrow, hholds⟩ := List.mem_filter.1 (hfilter ▸ List.mem_singleton_self row)
    exact decode_of_row hrow hholds
  case atMostOne =>
    by_cases h : ∃ row ∈ opcodeTable, row.holds w = true
    · obtain ⟨row, hrow, hholds⟩ := h
      rw [filter_rows_eq_singleton hrow hholds, List.length_singleton]
    · have hnil : opcodeTable.filter (·.holds w) = [] :=
        List.filter_eq_nil_iff.2 fun row hrow hholds => h ⟨row, hrow, hholds⟩
      rw [hnil]
      exact Nat.zero_le 1
  case badOp =>
    refine runCommand_of_no_row (fun row hrow => ?_) s
    by_contra hholds
    have hrange : ∀ row ∈ opcodeTable, 1 ≤ slice row.pattern 31 28 ∧ slice row.pattern 31 28 ≤ 6 := by decide
    have := hrange row hrow
    have := op_of_row_holds hrow (Bool.of_not_eq_false hholds)
    omega

/-! ## Encoding and decoding (R37) -/

theorem fwd_wf_iff (x y : Nat) : (Instr.fwd x y).wf = true ↔ x < 512 ∧ y < 256 := by simp [Instr.wf]

theorem inv_wf_iff (a : Nat) : (Instr.inv a).wf = true ↔ a < 65536 := by simp [Instr.wf]

theorem rdpix_wf_iff (col row : Nat) : (Instr.rdpix col row).wf = true ↔ col < 1024 ∧ row < 256 := by simp [Instr.wf]

/-- Settles O8: an encoded command is a word of its row, and each field of that word is the operand. -/
theorem decodeOfEncode : Obligations.DecodeOfEncode := by
  intro i hwf
  have hnat := encode_toNat hwf
  cases i with
  | fwd x y =>
    rw [decode_of_fwd_row (Laws.EncodesToItsRow.fwd x y hwf)]
    rw [fwd_wf_iff] at hwf
    simp only [slice_eq, hnat, Decoded.instr.injEq, Instr.fwd.injEq]
    omega
  | inv a =>
    rw [decode_of_inv_row (Laws.EncodesToItsRow.inv a hwf)]
    rw [inv_wf_iff] at hwf
    simp only [slice_eq, hnat, Decoded.instr.injEq, Instr.inv.injEq]
    omega
  | expand v =>
    have hv := v.isLt
    have hslice : slice (encode (.expand v)) 7 0 = v.toNat := by
      simp only [slice_eq, hnat]
      omega
    rw [decode_of_expand_row (Laws.EncodesToItsRow.expand v hwf), hslice, BitVec.ofNat_toNat, BitVec.setWidth_eq]
  | dframe => exact decode_of_dframe_row (Laws.EncodesToItsRow.dframe hwf)
  | rdpix col row =>
    rw [decode_of_rdpix_row (Laws.EncodesToItsRow.rdpix col row hwf)]
    rw [rdpix_wf_iff] at hwf
    simp only [slice_eq, hnat, Decoded.instr.injEq, Instr.rdpix.injEq]
    omega
  | rdstat => exact decode_of_rdstat_row (Laws.EncodesToItsRow.rdstat hwf)

theorem slice_lt (w : Word) (hi lo : Nat) : slice w hi lo < 2 ^ (hi - lo + 1) := Nat.mod_lt _ (by positivity)

/-- The decoder yields well-formed commands only: an operand is a slice of its field's width. -/
theorem wf_of_decode {w : Word} {i : Instr} (h : decode w = .instr i) : i.wf = true := by
  obtain ⟨rfl, -⟩ | ⟨rfl, -⟩ | ⟨rfl, -⟩ | ⟨rfl, -⟩ | ⟨rfl, -⟩ | ⟨rfl, -⟩ := decode_cases h
  · exact (fwd_wf_iff _ _).2 ⟨slice_lt w 8 0, slice_lt w 23 16⟩
  · exact (inv_wf_iff _).2 (slice_lt w 15 0)
  · rfl
  · rfl
  · exact (rdpix_wf_iff _ _).2 ⟨slice_lt w 9 0, slice_lt w 23 16⟩
  · rfl

/-- A legal word is the sum of its OP and its operands, since its other bits are zero. -/
theorem encode_of_decode {w : Word} {i : Instr} (h : decode w = .instr i) : encode i = w := by
  have hnat := encode_toNat (wf_of_decode h)
  have hw := w.isLt
  apply BitVec.eq_of_toNat_eq
  rw [hnat]
  obtain ⟨rfl, hfields⟩ | ⟨rfl, hfields⟩ | ⟨rfl, hfields⟩ | ⟨rfl, hfields⟩ | ⟨rfl, hfields⟩ | ⟨rfl, hfields⟩ :=
    decode_cases h
  all_goals
    simp only [slice_eq, BitVec.toNat_ofNat] at hfields ⊢
    omega

/-- Settles O9: a legal word is the sum of its fields, each of its width. -/
theorem encodeOfDecode : Obligations.EncodeOfDecode := fun _ _ h => ⟨encode_of_decode h, wf_of_decode h⟩

/-- Settles O10: the decoder evaluates on six closed words. -/
theorem writtenWordsDecode : Obligations.WrittenWordsDecode := by
  unfold Obligations.WrittenWordsDecode
  decide

end Sys2Proof.Machine
end

section
/-! The obligations of 30_encoding.md about the port: every command is answered, the step that runs it, the address
word, the fields of the responses, and the assembler. -/
namespace Sys2Proof.Machine

/-! ## Every command is answered (R39) -/

theorem Err.code_le (e : Err) : e.code.toNat ≤ 4 := by
  cases e <;> decide

/-- A command ends with a response, an error's with RESP 0, and takes no further event from the host. -/
theorem exec_responds (i : Instr) (s : State) :
    ∃ u resp e, exec i s = .next (respond u resp e) ∧ (e ≠ .ok → resp = 0) ∧ u.pending = s.pending := by
  cases i with
  | fwd x y =>
    simp only [exec, execFwd]
    split
    · exact ⟨s, _, .ok, rfl, by simp, rfl⟩
    · exact ⟨s, 0, .domain, rfl, fun _ => rfl, rfl⟩
  | inv a => exact ⟨s, _, .ok, rfl, by simp, rfl⟩
  | expand v => exact ⟨s, _, .ok, rfl, by simp, rfl⟩
  | dframe =>
    simp only [exec, execDframe]
    split
    · exact ⟨pass (startFrame s), 0, .ok, rfl, by simp, by rw [pass_startFrame]⟩
    · exact ⟨rejectFrame s, 0, .size, rfl, fun _ => rfl, rfl⟩
  | rdpix col row =>
    simp only [exec, execRdpix]
    split
    · split
      · exact ⟨s, _, .ok, rfl, by simp, rfl⟩
      · exact ⟨s, 0, .domain, rfl, fun _ => rfl, rfl⟩
    · exact ⟨s, 0, .notReady, rfl, fun _ => rfl, rfl⟩
  | rdstat => exact ⟨s, _, .ok, rfl, by simp, rfl⟩

theorem runCommand_responds (w : Word) (s : State) :
    ∃ u resp e, runCommand w s = .next (respond u resp e) ∧ (e ≠ .ok → resp = 0) ∧ u.pending = s.pending := by
  cases hd : decode w with
  | instr i =>
    rw [runCommand_of_instr hd]
    exact exec_responds i s
  | illegal why =>
    rw [runCommand, hd]
    exact ⟨s, 0, .illegalCommand, rfl, fun _ => rfl, rfl⟩

/-- Settles O11: every command ends in `respond`, and an error's RESP is 0. -/
theorem everyCommandAnswers : Obligations.EveryCommandAnswers := by
  intro w s
  obtain ⟨u, resp, e, hrun, hresp, hpending⟩ := runCommand_responds w s
  refine ⟨respond u resp e, ⟨resp, e.code⟩, hrun, rfl, e.code_le, fun hcode => hresp ?_, hpending⟩
  rintro rfl
  exact hcode rfl

/-! ## Every step from a state of the invariant answers -/

theorem hostStep_answers (s : State) : ∃ t, hostStep s = .next t := by
  unfold hostStep
  split
  · exact ⟨_, rfl⟩
  · next w b rest _ =>
    obtain ⟨u, resp, e, hrun, -⟩ := runCommand_responds w (acceptCommand s rest b)
    exact ⟨_, hrun⟩
  · exact ⟨_, rfl⟩
  · exact ⟨_, rfl⟩

theorem sequencerStep_answers {s : State} (hfb : s.fb.isSome = true) (hcursor : s.cursor.toNat ≤ Config.fbSize) :
    ∃ t, sequencerStep s = .next t := by
  rw [sequencerStep, if_pos ⟨hfb, hcursor⟩]
  split <;> exact ⟨_, rfl⟩

/-- In the invariant a pass has the frame it runs on (R7). -/
theorem Inv.fb_isSome_of_running {s : State} (h : Inv s) (hrun : s.status = .running) : s.fb.isSome = true := by
  by_contra hfb
  obtain ⟨-, -, hstatus⟩ := h.beforeFirstFrame (by simpa using hfb)
  simp [hrun] at hstatus

/-- Settles O58: at the port the host's step answers always, and inside a pass the invariant gives the sequencer its
frame and its cursor. -/
theorem invariantStatesNeverStop : Obligations.InvariantStatesNeverStop := by
  intro s h
  unfold step
  split
  · next hrun => exact sequencerStep_answers (h.fb_isSome_of_running hrun.1) h.cursorInRange
  · exact hostStep_answers s

/-! ## The step runs the command that is pending (R35, R36) -/

theorem decodeTableWord_cases {nbits w : Nat} {i : Instr} (h : decodeTableWord nbits w = some i) :
    ∃ word, tableWord nbits w = some word ∧ decode word = .instr i := by
  unfold decodeTableWord at h
  split at h
  · cases h
  · next word hword =>
    split at h
    · next hd =>
      cases h
      exact ⟨word, hword, hd⟩
    · cases h

/-- The buffer of a legal word: a frame of zeros for DFRAME, else none (log 7). -/
theorem bufferFor_of_decode {w : Word} {i : Instr} (h : decode w = .instr i) :
    bufferFor w = if i = .dframe then List.replicate 8192 0 else [] := by
  rw [bufferFor, h]
  cases i <;> rfl

/-- At the port the word is put in front of the pending events and nothing else changes. -/
theorem withFetchWord_of_atPort {s : State} (hport : AtPort s) {nbits w : Nat} {word : Word}
    (h : tableWord nbits w = some word) :
    s.withFetchWord nbits w = { s with pending := .command word (bufferFor word) :: s.pending } := by
  rw [State.withFetchWord, h]
  simp only [if_neg hport]

theorem step_port_instr {s : State} (hport : AtPort s) {w : Word} {b : List Byte} {rest : List HostEvent} {i : Instr}
    (hp : s.pending = .command w b :: rest) (hd : decode w = .instr i) :
    step s = exec i { s with pending := rest, inbuf := b } := by
  rw [step_port_command hport hp, runCommand_of_instr hd]

/-- Settles O55: `withFetchWord` at the port only puts the word in front of the pending events. -/
theorem stepRunsDecodedCommand : Obligations.StepRunsDecodedCommand := by
  refine ⟨fun s w b rest i hport => step_port_instr hport, fun s nbits w i hport h => ?_⟩
  obtain ⟨word, hword, hd⟩ := decodeTableWord_cases h
  rw [withFetchWord_of_atPort hport hword, ← bufferFor_of_decode hd]
  exact step_port_instr (s := { s with pending := .command word (bufferFor word) :: s.pending }) hport rfl hd

/-! ## The address word (R30) -/

/-- The concatenation {OFFSET, ROW, M} is the sum of its fields at their weights. -/
theorem concat_fields_toNat {o r m : Nat} (ho : o < 2 ^ 3) (hr : r < 2 ^ 3) (hm : m < 2 ^ 7) :
    (BitVec.ofNat 3 o ++ BitVec.ofNat 3 r ++ BitVec.ofNat 7 m).toNat = 0x400 * o + 0x80 * r + m := by
  simp only [BitVec.toNat_append, BitVec.toNat_ofNat, Nat.mod_eq_of_lt ho, Nat.mod_eq_of_lt hr, Nat.mod_eq_of_lt hm]
  rw [← Nat.shiftLeft_add_eq_or_of_lt hr, ← Nat.shiftLeft_add_eq_or_of_lt hm]
  simp only [Nat.shiftLeft_eq]
  omega

/-- Settles O6, by the offset, row, group and byte column of a valid address. -/
theorem addressWordFields : Obligations.AddressWordFields := by
  intro a hvalid
  obtain ⟨hle, hlow⟩ := (isValidAddress_iff a).1 hvalid
  obtain ⟨g, r, o, k, hg, hr, ho, hk, rfl⟩ := address_split hle (by omega)
  have hgroup : (64 * g + 8 * r + o) / 64 = g := by omega
  have hrow : (64 * g + 8 * r + o) / 8 % 8 = r := by omega
  have hoffset : (64 * g + 8 * r + o) % 8 = o := by omega
  have hcolumn : 7 * k / 7 = k := by omega
  refine ⟨7 * k, 64 * g + 8 * r + o, inverse_split hg hr ho hk, by omega, by omega, ?_⟩
  rw [offset_field hg hr ho hk, row_field hg hr hk, m_field hg hk, hgroup, hrow, hoffset, hcolumn,
    concat_fields_toNat (by omega) (by omega) (by omega)]
  omega

/-! ## The fields of the responses (R40) -/

theorem forward_le {x y : Nat} (hx : x ≤ 279) (hy : y ≤ 191) : forward x y ≤ 0x1FFF := by
  rw [forward_eq]
  omega

theorem addressResp_fields {a : Nat} (h : a ≤ 0x1FFF) :
    slice (addressResp a) 12 0 = a ∧ slice (addressResp a) 31 13 = 0 := by
  simp only [slice_eq, addressResp_toNat h]
  omega

theorem coordinateResp_fields {x y : Nat} (hx : x < 512) (hy : y < 256) :
    slice (coordinateResp (some (x, y))) 31 31 = 1 ∧ slice (coordinateResp (some (x, y))) 30 24 = 0 ∧
      slice (coordinateResp (some (x, y))) 23 16 = y ∧ slice (coordinateResp (some (x, y))) 15 9 = 0 ∧
      slice (coordinateResp (some (x, y))) 8 0 = x := by
  simp only [slice_eq, coordinateResp_toNat hx hy]
  omega

theorem windowResp_fields {n : Nat} (hn : n ≤ 1) (window : BitVec 15) :
    slice (windowResp n window) 31 16 = 0 ∧ slice (windowResp n window) 15 15 = n ∧
      slice (windowResp n window) 14 0 = window.toNat := by
  have hwindow := window.isLt
  simp only [slice_eq, windowResp_toNat hn]
  omega

theorem pixelResp_fields (p : Pixel) :
    slice (pixelResp p) 31 1 = 0 ∧ slice (pixelResp p) 0 0 = if p then 1 else 0 := by
  cases p <;> decide

theorem statusWord_fields (st : RunState) : slice (statusWord st) 31 2 = 0 ∧ slice (statusWord st) 1 0 = st.code := by
  cases st <;> decide

/-- FWD answers without an error on a coordinate only, and then with its address (R44). -/
theorem execFwd_ok {x y : Nat} {s t : State} {r : Word} (ht : execFwd x y s = .next t)
    (hr : t.response = some ⟨r, 0⟩) : x ≤ 279 ∧ y ≤ 191 ∧ r = addressResp (forward x y) := by
  unfold execFwd at ht
  split at ht
  · next hdomain =>
    obtain ⟨hx, hy⟩ := (inCoordinateDomain_iff x y).1 hdomain
    cases ht
    cases hr
    exact ⟨hx, hy, rfl⟩
  · cases ht
    cases hr

/-- DFRAME answers without an error with RESP 0 (R65). -/
theorem execDframe_ok {s t : State} {r : Word} (ht : execDframe s = .next t) (hr : t.response = some ⟨r, 0⟩) :
    r = 0 := by
  by_cases hl : s.inbuf.length = 8192
  · cases (execDframe_frame hl).symm.trans ht
    cases hr
    rfl
  · rw [execDframe, if_neg hl] at ht
    cases ht
    cases hr

/-- RDPIX answers without an error with the cell's pixel (R62). -/
theorem execRdpix_ok {col row : Nat} {s t : State} {r : Word} (ht : execRdpix col row s = .next t)
    (hr : t.response = some ⟨r, 0⟩) : r = pixelResp (rasterRead s.raster row col) := by
  unfold execRdpix at ht
  split at ht
  · split at ht
    · cases ht
      cases hr
      rfl
    · cases ht
      cases hr
  · cases ht
    cases hr

/-- Settles O12, by the response word of each command and its fields. -/
theorem responseLayouts : Obligations.ResponseLayouts := by
  refine ⟨?fwd, ?inv, ?invInvalid, ?expand, fun s t r => execDframe_ok, ?rdpix, ?rdstat⟩
  case fwd =>
    intro x y s t r ht hr
    obtain ⟨hx, hy, rfl⟩ := execFwd_ok ht hr
    exact addressResp_fields (forward_le hx hy)
  case inv =>
    intro a x y s t r ht hr ha
    cases ht
    cases hr
    obtain ⟨k, hk, rfl, hy, -⟩ := (inverse_eq_some_iff a x y).1 ha
    rw [ha]
    exact coordinateResp_fields (by omega) (by omega)
  case invInvalid =>
    intro a s t r ht hr ha
    cases ht
    cases hr
    rw [ha]
    rfl
  case expand =>
    intro v s t r ht hr
    cases ht
    cases hr
    exact windowResp_fields (shiftOf_le v) _
  case rdpix =>
    intro col row s t r ht hr
    obtain rfl := execRdpix_ok ht hr
    exact pixelResp_fields _
  case rdstat =>
    intro s t r ht hr
    cases ht
    cases hr
    exact statusWord_fields s.status

/-! ## The assembler (R41) -/

/-- OP and two fields put together by OR are their sum at their weights. -/
theorem or_fields_eq_ofNat_sum {op y x : Nat} (hy : y < 256) (hx : x < 2 ^ 16) :
    BitVec.ofNat 32 (2 ^ 28 * op) ||| BitVec.ofNat 32 y <<< 16 ||| BitVec.ofNat 32 x =
      BitVec.ofNat 32 (2 ^ 28 * op + y * 2 ^ 16 + x) := by
  have hshift : BitVec.ofNat 32 y <<< 16 = BitVec.ofNat 32 (y <<< 16) := by
    apply BitVec.eq_of_toNat_eq
    simp only [BitVec.toNat_shiftLeft, BitVec.toNat_ofNat, Nat.shiftLeft_eq]
    omega
  have hlow : y <<< 16 + x < 2 ^ 28 := by
    rw [Nat.shiftLeft_eq]
    omega
  rw [hshift, ← BitVec.ofNat_or, ← BitVec.ofNat_or, Nat.or_assoc, ← Nat.shiftLeft_add_eq_or_of_lt hx,
    ← Nat.two_pow_add_eq_or_of_lt hlow, Nat.shiftLeft_eq, Nat.add_assoc]

/-- OP and one field put together by OR are their sum at their weights. -/
theorem or_field_eq_ofNat_sum {op a : Nat} (ha : a < 2 ^ 16) :
    BitVec.ofNat 32 (2 ^ 28 * op) ||| BitVec.ofNat 32 a = BitVec.ofNat 32 (2 ^ 28 * op + a) := by
  rw [← BitVec.ofNat_or, ← Nat.two_pow_add_eq_or_of_lt (by omega)]

theorem assemble_fwd_eq_none_iff (x y : Nat) : assemble (.fwd x y) = none ↔ x > 511 ∨ y > 255 := by
  simp [assemble, or_iff_not_imp_left]

theorem assemble_inv_eq_none_iff (a : Nat) : assemble (.inv a) = none ↔ a > 0xFFFF := by
  simp [assemble]

theorem assemble_expand_eq_none_iff (v : Nat) : assemble (.expand v) = none ↔ v > 255 := by
  simp [assemble]

theorem assemble_rdpix_eq_none_iff (col row : Nat) : assemble (.rdpix col row) = none ↔ col > 1023 ∨ row > 255 := by
  simp [assemble, or_iff_not_imp_left]

/-- A raw word is any word. -/
theorem assemble_word (w : Word) : assemble (.word w.toNat) = some w := by
  have hw := w.isLt
  rw [assemble, if_neg (by omega), BitVec.ofNat_toNat, BitVec.setWidth_eq]

/-- A line that is assembled stands for a well-formed command, and its word is that command's encoding. -/
theorem assemble_eq_encode {l : AsmLine} {i : Instr} (hi : l.instr = some i) {w : Word} (hw : assemble l = some w) :
    w = encode i ∧ i.wf = true := by
  cases l with
  | fwd x y =>
    cases hi
    obtain ⟨hfits, hword⟩ := Option.ite_none_left_eq_some.1 hw
    cases hword
    exact ⟨or_fields_eq_ofNat_sum (op := 1) (by omega) (by omega), (fwd_wf_iff x y).2 (by omega)⟩
  | inv a =>
    cases hi
    obtain ⟨hfits, hword⟩ := Option.ite_none_left_eq_some.1 hw
    cases hword
    exact ⟨or_field_eq_ofNat_sum (op := 2) (by omega), (inv_wf_iff a).2 (by omega)⟩
  | expand v =>
    cases hi
    obtain ⟨hfits, hword⟩ := Option.ite_none_left_eq_some.1 hw
    cases hword
    have hv : (BitVec.ofNat 8 v).toNat = v := by
      rw [BitVec.toNat_ofNat]
      omega
    rw [encode, hv]
    exact ⟨or_field_eq_ofNat_sum (op := 3) (by omega), rfl⟩
  | dframe =>
    cases hi
    cases hw
    exact ⟨rfl, rfl⟩
  | rdpix col row =>
    cases hi
    obtain ⟨hfits, hword⟩ := Option.ite_none_left_eq_some.1 hw
    cases hword
    exact ⟨or_fields_eq_ofNat_sum (op := 5) (by omega) (by omega), (rdpix_wf_iff col row).2 (by omega)⟩
  | rdstat =>
    cases hi
    cases hw
    exact ⟨rfl, rfl⟩
  | word w => cases hi

theorem decode_of_assemble {l : AsmLine} {i : Instr} (hi : l.instr = some i) {w : Word} (hw : assemble l = some w) :
    decode w = .instr i := by
  obtain ⟨rfl, hwf⟩ := assemble_eq_encode hi hw
  exact decodeOfEncode i hwf

/-- FWD outside the domain of coordinates (R44). -/
theorem execFwd_domain {x y : Nat} (h : x > 279 ∨ y > 191) (s : State) :
    execFwd x y s = .next { s with response := some ⟨0, 2⟩ } := by
  rw [execFwd, if_neg]
  · rfl
  · rw [inCoordinateDomain_iff]
    omega

/-- Settles O13, by `assemble_eq_encode` and the round trip of O8; the worked texts are evaluated. -/
theorem assemblerWords : Obligations.AssemblerWords := by
  refine ⟨fun l i hi w hw => ⟨(assemble_eq_encode hi hw).1, decode_of_assemble hi hw⟩, assemble_fwd_eq_none_iff,
    assemble_inv_eq_none_iff, assemble_expand_eq_none_iff, assemble_rdpix_eq_none_iff, ⟨rfl, rfl⟩, assemble_word,
    fun x y w s hw h => ?outside, ?texts⟩
  case outside =>
    rw [runCommand_of_instr (decode_of_assemble (l := .fwd x y) rfl hw)]
    exact execFwd_domain h s
  case texts => decide

end Sys2Proof.Machine
end

section
/-! The obligations of 40_address_mapper.md: the forward and the inverse map, and the commands FWD and INV. -/
namespace Sys2Proof.Machine

/-! ## Fields of a natural (R5) -/

/-- A field appended below another is the sum of the two at their weights. -/
theorem toNat_append_ofNat {k m n : Nat} (v : BitVec k) (hn : n < 2 ^ m) :
    (v ++ BitVec.ofNat m n).toNat = v.toNat * 2 ^ m + n := by
  rw [BitVec.toNat_append, BitVec.toNat_ofNat, Nat.mod_eq_of_lt hn, ← Nat.shiftLeft_add_eq_or_of_lt hn,
    Nat.shiftLeft_eq]

/-- The field M of an address is its remainder by 0x80 (R47). -/
theorem bits_low (a : Nat) : bits a 6 0 = a % 0x80 := by
  rw [bits, pow_zero, Nat.div_one]
  rfl

/-- The bits under the mask 0x0078 are the field [6:3] (R31). -/
theorem and_0x78_eq (a : Nat) : a &&& 0x0078 = 8 * bits a 6 3 := by
  have hhigh : (a &&& 0x0078) / 2 ^ 3 = a / 2 ^ 3 % 2 ^ 4 := by
    rw [Nat.and_div_two_pow]
    exact Nat.and_two_pow_sub_one_eq_mod _ 4
  have hlow : (a &&& 0x0078) % 2 ^ 3 = 0 := by
    rw [Nat.and_mod_two_pow]
    exact Nat.and_zero _
  rw [bits]
  omega

/-! ## The forward map (R42) -/

/-- Every column of a byte has the byte's address. -/
theorem forward_eq_of_byteColumn {x x' : Nat} (h : x / 7 = x' / 7) (y : Nat) : forward x y = forward x' y := by
  rw [forward_eq, forward_eq, h]

theorem forward_eq_forward_byteColumn (x y : Nat) : forward x y = forward (7 * (x / 7)) y :=
  forward_eq_of_byteColumn (Nat.mul_div_cancel_left _ (by decide)).symm y

theorem forward_le_last {x y : Nat} (hx : x ≤ 279) (hy : y ≤ 191) : forward x y ≤ 0x1FF7 := by
  rw [forward_eq]
  omega

/-! ## The inverse map (R45) -/

theorem inverse_eq_none_of_hole {a : Nat} (h : 0x78 ≤ a % 0x80) : inverse a = none :=
  (inverse_eq_none_iff a).2 (.inr h)

theorem isValidAddress_of_inverse {a : Nat} {xy : Nat × Nat} (h : inverse a = some xy) : isValidAddress a = true := by
  by_contra hvalid
  have hnone : inverse a = none := (inverse_eq_none_iff a).2 (by
    rw [isValidAddress_iff] at hvalid
    omega)
  cases hnone.symm.trans h

/-- The inverse map answers the byte column of the forward map's column (R49). -/
theorem inverse_forward_column {x y : Nat} (hx : x ≤ 279) (hy : y ≤ 191) :
    inverse (forward x y) = some (7 * (x / 7), y) := by
  rw [forward_eq_forward_byteColumn]
  exact inverse_forward (by omega) hy

theorem forward_valid {x y : Nat} (hx : x ≤ 279) (hy : y ≤ 191) : isValidAddress (forward x y) = true :=
  isValidAddress_of_inverse (inverse_forward_column hx hy)

/-- A valid address is the address of a byte column, and that is its coordinate. -/
theorem exists_byteColumn_of_valid {a : Nat} (h : isValidAddress a = true) :
    ∃ k y, k ≤ 39 ∧ y ≤ 191 ∧ forward (7 * k) y = a ∧ inverse a = some (7 * k, y) := by
  obtain ⟨hle, hlow⟩ := (isValidAddress_iff a).1 h
  obtain ⟨⟨x, y⟩, hxy⟩ := Option.ne_none_iff_exists'.1 (mt (inverse_eq_none_iff a).1 (by omega))
  obtain ⟨k, hk, rfl, hy, ha⟩ := (inverse_eq_some_iff a x y).1 hxy
  exact ⟨k, y, hk, hy, ha.symm, hxy⟩

/-! ## Valid addresses and holes (R31, R47) -/

/-- A property of the remainder by `c` holds equally often in each block of `c` numbers. -/
theorem length_filter_range_mul_mod (c n : Nat) (q : Nat → Bool) :
    ((List.range (c * n)).filter fun a => q (a % c)).length = n * ((List.range c).filter q).length := by
  induction n with
  | zero => simp
  | succ n ih =>
    have hblock : ((List.range c).filter fun i => q ((c * n + i) % c)) = (List.range c).filter q :=
      List.filter_congr fun i hi => by
        rw [Nat.mul_add_mod, Nat.mod_eq_of_lt (List.mem_range.1 hi)]
    rw [Nat.mul_succ, List.range_add, List.filter_append, List.length_append, ih, List.filter_map, List.length_map,
      Nat.succ_mul]
    exact congrArg _ (congrArg _ hblock)

/-- Each of the 64 blocks of 0x80 addresses ends in 8 holes. -/
theorem hole_count : ((List.range 8192).filter isHole).length = 512 := by
  have hmod : ∀ a ∈ List.range (0x80 * 64), isHole a = decide (0x78 ≤ a % 0x80) := fun a ha => by
    rw [Bool.eq_iff_iff, isHole_iff, decide_eq_true_eq, and_iff_right (Nat.le_of_lt_succ (List.mem_range.1 ha))]
  rw [List.filter_congr hmod, length_filter_range_mul_mod 0x80 64 fun m => decide (0x78 ≤ m)]
  decide

/-- The addresses of FB that are no holes. -/
theorem valid_count : ((List.range 8192).filter isValidAddress).length = 7680 := by
  have hnot : ∀ a ∈ List.range 8192, isValidAddress a = !isHole a := fun a ha => by
    have hlt := List.mem_range.1 ha
    rw [Bool.eq_iff_iff, Bool.not_eq_true', Bool.eq_false_iff, ne_eq, isValidAddress_iff, isHole_iff]
    omega
  have htotal := (List.range 8192).length_eq_length_filter_add isHole
  rw [List.length_range, hole_count, ← List.filter_congr hnot] at htotal
  omega

/-- A hole by the bits [6:3] of its address (R31). -/
theorem isHole_iff_bits {a : Nat} (ha : a ≤ 0x1FFF) : isHole a = true ↔ bits a 6 3 = 0b1111 := by
  rw [isHole_iff, bits]
  omega

/-! ## The commands FWD and INV (R44, R48) -/

theorem runCommand_of_illegal {w : Word} {why : Illegal} (h : decode w = .illegal why) (s : State) :
    runCommand w s = .next { s with response := some ⟨0, 1⟩ } := by
  rw [runCommand, h]
  rfl

/-- FWD on a coordinate (R44). -/
theorem execFwd_address {x y : Nat} (hx : x ≤ 279) (hy : y ≤ 191) (s : State) :
    execFwd x y s = .next { s with response := some ⟨addressResp (forward x y), 0⟩ } := by
  rw [execFwd, if_pos ((inCoordinateDomain_iff x y).2 ⟨hx, hy⟩)]
  rfl

/-- A FWD word with a reserved bit that is 1 (R38). -/
theorem decode_fwd_reserved {w : Word} (hop : slice w 31 28 = 1) (h : slice w 27 24 ≠ 0 ∨ slice w 15 9 ≠ 0) :
    decode w = .illegal (.reservedBit 1) := by
  simp only [decode, hop]
  exact if_neg (by omega)

/-- An INV word with a reserved bit that is 1 (R38). -/
theorem decode_inv_reserved {w : Word} (hop : slice w 31 28 = 2) (h : slice w 27 16 ≠ 0) :
    decode w = .illegal (.reservedBit 2) := by
  simp only [decode, hop]
  exact if_neg h

/-! ## The statements -/

/-- Settles O14: each clause is a bound on the interleave sum, and outside the domain FWD raises DOMAIN. -/
theorem forwardInterleaveSum : Obligations.ForwardInterleaveSum :=
  ⟨fun x y hx hy => ⟨forward_eq x y, forward_le_last hx hy, forward_valid hx hy,
    fun _ h => forward_eq_of_byteColumn h y⟩, fun _ _ s h => execFwd_domain h s⟩

/-- Settles O15: the three fields do not overlap, so OR and concatenation are the sum. -/
theorem forwardBitFields : Obligations.ForwardBitFields := by
  intro x y hx hy
  have hgroup : bits y 7 6 = y / 64 := by
    rw [bits]
    omega
  have hrow : bits y 5 3 = y / 8 % 8 := rfl
  have hoffset : bits y 2 0 = y % 8 := by
    rw [bits]
    omega
  have hm : 40 * (y / 64) + x / 7 < 2 ^ 7 := by omega
  have hrowm : (y / 8 % 8) <<< 7 + (40 * (y / 64) + x / 7) < 2 ^ 10 := by
    rw [Nat.shiftLeft_eq]
    omega
  have hsum : forward x y = (y % 8) <<< 10 + (y / 8 % 8) <<< 7 + (40 * (y / 64) + x / 7) := by
    rw [forward_eq, Nat.shiftLeft_eq, Nat.shiftLeft_eq]
    omega
  rw [hgroup, hrow, hoffset]
  refine ⟨rfl, rfl, rfl, ?or, hsum, ?concat⟩
  case or =>
    rw [hsum, Nat.or_assoc, ← Nat.shiftLeft_add_eq_or_of_lt hm, ← Nat.shiftLeft_add_eq_or_of_lt hrowm, Nat.add_assoc]
  case concat =>
    rw [concat_fields_toNat (by omega) (by omega) hm, forward_eq]
    omega

/-- Settles O16, by the offset, row, group and byte column of a valid address. -/
theorem inverseBitFields : Obligations.InverseBitFields := by
  intro a hvalid
  obtain ⟨hle, hlow⟩ := (isValidAddress_iff a).1 hvalid
  obtain ⟨g, r, o, k, hg, hr, ho, hk, rfl⟩ := address_split hle (by omega)
  have hgroup : (0x28 * g + k) / 40 = g := by omega
  have hcolumn : (0x28 * g + k) % 40 = k := by omega
  rw [offset_field hg hr ho hk, row_field hg hr hk, m_field hg hk, hgroup, hcolumn]
  refine ⟨inverse_split hg hr ho hk, ?_⟩
  rw [toNat_append_ofNat _ (by omega), toNat_append_ofNat _ (by omega), BitVec.toNat_ofNat]
  omega

/-- Settles O17: every form is an inequality on the address and on its remainder by 0x80. -/
theorem addressClassification : Obligations.AddressClassification := by
  refine ⟨fun a => ?valid, fun a => ?hole, fun a => ?none, fun a => inverse_eq_none_of_hole,
    fun a => isHole_iff_bits, fun a ha => ?mask, fun a => ?enumerated, valid_count, hole_count,
    fun x y => forward_valid⟩
  case valid => rw [bits_low, isValidAddress_iff]
  case hole => rw [bits_low, isHole_iff]
  case none =>
    rw [inverse_eq_none_iff, isHole_iff]
    omega
  case mask =>
    rw [isHole_iff_bits ha, and_0x78_eq]
    omega
  case enumerated =>
    rw [isHole_iff]
    constructor
    · rintro ⟨hle, hlow⟩
      exact ⟨a / 0x80, a % 0x80 - 0x78, by omega, by omega, by omega⟩
    · rintro ⟨n, j, hn, hj, rfl⟩
      omega

/-- Settles O18: a column's byte column has its address, and the inverse map answers the byte column. -/
theorem mapperRoundTrip : Obligations.MapperRoundTrip := by
  refine ⟨fun x y => inverse_forward_column, fun a hvalid => ?_⟩
  obtain ⟨k, y, -, -, hforward, hinverse⟩ := exists_byteColumn_of_valid hvalid
  exact ⟨7 * k, y, hinverse, fun x' hx' => (forward_eq_of_byteColumn hx' y).trans hforward⟩

/-- Settles O19: on byte coordinates the two maps are each other's inverse. -/
theorem mapperBijection : Obligations.MapperBijection := by
  refine ⟨?injective, fun a => ⟨?surjective, ?image⟩, ?inverseInjective, ⟨0, 1, 0, by decide⟩, fun x y => ⟨?range, ?hit⟩⟩
  case injective =>
    intro k y k' y' hk hy hk' hy' h
    have hinverse := congrArg inverse h
    rw [inverse_forward hk hy, inverse_forward hk' hy', Option.some.injEq, Prod.mk.injEq] at hinverse
    omega
  case surjective =>
    intro hvalid
    obtain ⟨k, y, hk, hy, hforward, -⟩ := exists_byteColumn_of_valid hvalid
    exact ⟨k, y, hk, hy, hforward⟩
  case image =>
    rintro ⟨k, y, hk, hy, rfl⟩
    exact forward_valid (by omega) hy
  case inverseInjective =>
    intro a b ha hb h
    obtain ⟨k, y, -, -, rfl, hinverse⟩ := exists_byteColumn_of_valid ha
    obtain ⟨k', y', -, -, rfl, hinverse'⟩ := exists_byteColumn_of_valid hb
    rw [hinverse, hinverse', Option.some.injEq, Prod.mk.injEq] at h
    obtain ⟨hcolumn, rfl⟩ := h
    rw [hcolumn]
  case range =>
    rintro ⟨a, -, h⟩
    obtain ⟨k, hk, hx, hy, -⟩ := (inverse_eq_some_iff a x y).1 h
    exact ⟨k, hk, hx, hy⟩
  case hit =>
    rintro ⟨k, hk, rfl, hy⟩
    exact ⟨forward (7 * k) y, forward_valid (by omega) hy, inverse_forward hk hy⟩

/-- Settles O20: a line's base is linear in its group, row and offset. -/
theorem interleaveStrides : Obligations.InterleaveStrides := by
  intro y hy
  refine ⟨fun k _ => forward_succ k y, fun k _ => ?column, fun h => ?line, fun h h' => ?row, fun h _ => ?group⟩
  all_goals
    simp only [forward_eq]
    omega

/-- Settles O21, by the three cases of the word in the order of R44's checks. -/
theorem fwdCommandWord : Obligations.FwdCommandWord := by
  refine ⟨fun w s hop => ?word, fun x x' y h => forward_eq_of_byteColumn h y,
    forward_eq_forward_byteColumn 279, fun x hx => ?first, fun x hx hx' => ?last, fun x y => forward_le_last,
    fun s => rfl⟩
  case word =>
    split
    · next h => exact runCommand_of_illegal (decode_fwd_reserved hop h) s
    · next h =>
      have hrow : OpcodeRow.fwd.holds w = true := (fwd_row_holds_iff w).2 ⟨hop, by omega⟩
      rw [runCommand_of_instr (decode_of_fwd_row hrow)]
      split
      · next hdomain => exact execFwd_domain hdomain s
      · next hdomain => exact execFwd_address (by omega) (by omega) s
  case first =>
    rw [forward_eq]
    omega
  case last =>
    rw [forward_eq]
    omega

/-- Settles O22, by the cases of the word and of the inverse map. -/
theorem invCommandWord : Obligations.InvCommandWord := by
  refine ⟨fun w s hop => ?word, by decide, by decide, fun a h h' => ?firstHole, fun a h h' => ?above, fun s => rfl⟩
  case word =>
    split
    · next h => exact runCommand_of_illegal (decode_inv_reserved hop h) s
    · next h =>
      have hrow : OpcodeRow.inv.holds w = true := (inv_row_holds_iff w).2 ⟨hop, by omega⟩
      rw [runCommand_of_instr (decode_of_inv_row hrow)]
      simp only [exec, execInv]
      cases inverse (slice w 15 0) <;> rfl
  case firstHole => exact inverse_eq_none_of_hole (by omega)
  case above =>
    rw [inverse_eq_none_iff]
    omega

/-- Settles O23: the address fits RESP, so its number is the interleave sum. -/
theorem fwdCompletes : Obligations.FwdCompletes := fun _ _ s hx hy =>
  ⟨_, execFwd_address hx hy s, addressResp_toNat (forward_le hx hy)⟩

/-- Settles O24: R45's arithmetic is the bit-field form of O16, and its coordinate fits RESP. -/
theorem invCompletes : Obligations.InvCompletes := by
  intro a s
  refine ⟨coordinateResp (inverse a), rfl, ?_⟩
  split
  · next hvalid =>
    have hrow : bits a 9 7 = a / 0x80 % 8 := rfl
    have hoffset : bits a 12 10 = a / 0x400 := by
      rw [bits]
      omega
    obtain ⟨hinverse, -⟩ := inverseBitFields a ((isValidAddress_iff a).2 hvalid)
    rw [hinverse, bits_low, hrow, hoffset, coordinateResp_toNat (by omega) (by omega)]
  · next hinvalid =>
    rw [(inverse_eq_none_iff a).2 (by omega)]
    rfl

end Sys2Proof.Machine
end

section
/-! The obligations of 41_bit_expander.md: the window of a byte, the columns it writes, and the command EXPAND. -/
namespace Sys2Proof.Machine

/-! ## The shift (R52) -/

theorem shiftOf_eq_one_iff (v : Byte) : shiftOf v = 1 ↔ shiftBit v = true := by
  unfold shiftOf
  split <;> simp_all

theorem shiftOf_eq_zero_iff (v : Byte) : shiftOf v = 0 ↔ shiftBit v = false := by
  unfold shiftOf
  split <;> simp_all

/-- The shift depends on bit 7 alone (R56). -/
theorem shiftOf_congr {u v : Byte} (h : u.getLsbD 7 = v.getLsbD 7) : shiftOf u = shiftOf v := by
  unfold shiftOf shiftBit
  rw [h]

/-! ## The window (R52) -/

/-- Every position of the window: a sample inside the write set, off outside. -/
theorem expand_getLsbD_eq (v : Byte) (i : Nat) :
    (expand v).2.getLsbD i =
      if shiftOf v ≤ i ∧ i ≤ shiftOf v + 13 then sample v ((i - shiftOf v) / 2) else false := by
  have hs := shiftOf_le v
  rw [expand_getLsbD, windowAt]
  split
  · rw [decide_eq_true (by omega), Bool.true_and]
  · exact Bool.and_false _

theorem expand_getLsbD_writeSet (v : Byte) {j : Nat} (hj : j ≤ 13) :
    (expand v).2.getLsbD (shiftOf v + j) = sample v (j / 2) := by
  rw [expand_getLsbD_eq, if_pos (by omega), Nat.add_sub_cancel_left]

theorem expand_getLsbD_outside {v : Byte} {i : Nat} (h : ¬(shiftOf v ≤ i ∧ i ≤ shiftOf v + 13)) :
    (expand v).2.getLsbD i = false := by
  rw [expand_getLsbD_eq, if_neg h]

/-- Lane b drives two neighbouring positions with bit b (R52, R56). -/
theorem expand_getLsbD_lane (v : Byte) {b : Nat} (hb : b ≤ 6) :
    (expand v).2.getLsbD (shiftOf v + 2 * b) = v.getLsbD b ∧
      (expand v).2.getLsbD (shiftOf v + 2 * b + 1) = v.getLsbD b := by
  have hleft : 2 * b / 2 = b := by omega
  have hright : (2 * b + 1) / 2 = b := by omega
  rw [Nat.add_assoc, expand_getLsbD_writeSet v (by omega), expand_getLsbD_writeSet v (by omega), hleft, hright]
  exact ⟨rfl, rfl⟩

/-- A bitwise operation on bytes of one shift that keeps 0 is the same operation on their windows (R56). -/
theorem expand_getLsbD_bitwise {u v w : Byte} {f : Bool → Bool → Bool} (hf : f false false = false)
    (hw : ∀ b, w.getLsbD b = f (u.getLsbD b) (v.getLsbD b)) (hu : shiftOf u = shiftOf w)
    (hv : shiftOf v = shiftOf w) (i : Nat) :
    (expand w).2.getLsbD i = f ((expand u).2.getLsbD i) ((expand v).2.getLsbD i) := by
  simp only [expand_getLsbD_eq, hu, hv]
  split
  · exact hw _
  · exact hf.symm

/-! ## The writes of one byte (R53) -/

/-- The writes of a byte as one list over its 14 columns, with the samples they double. -/
theorem groupWrites_eq_samples (y x : Nat) (v : Byte) :
    groupWrites y x v = (List.range 14).map fun i => ⟨y, 2 * x + shiftOf v + i, sample v (i / 2)⟩ := by
  simp [groupWrites, bitWrites, List.range_succ, Nat.add_assoc]

/-- The writes of a byte take their values from its window. -/
theorem groupWrites_eq_window (y x : Nat) (v : Byte) :
    groupWrites y x v =
      (List.range 14).map fun i => ⟨y, 2 * x + shiftOf v + i, (expand v).2.getLsbD (shiftOf v + i)⟩ := by
  rw [groupWrites_eq_samples]
  refine List.map_congr_left fun i hi => ?_
  rw [expand_getLsbD_writeSet v (Nat.le_of_lt_succ (List.mem_range.1 hi))]

theorem mem_groupWrites_iff {y x : Nat} {v : Byte} {w : PixelWrite} :
    w ∈ groupWrites y x v ↔ ∃ i, i ≤ 13 ∧ w = ⟨y, 2 * x + shiftOf v + i, sample v (i / 2)⟩ := by
  simp only [groupWrites_eq_samples, List.mem_map, List.mem_range, Nat.lt_succ_iff, eq_comm]

/-- A byte writes to the 14 columns from its first one on, and to no other. -/
theorem exists_groupWrites_col_iff (y x : Nat) (v : Byte) (c : Nat) :
    (∃ w ∈ groupWrites y x v, w.col = c) ↔ 2 * x + shiftOf v ≤ c ∧ c ≤ 2 * x + shiftOf v + 13 := by
  constructor
  · rintro ⟨w, hw, rfl⟩
    obtain ⟨i, hi, rfl⟩ := mem_groupWrites_iff.1 hw
    exact ⟨Nat.le_add_right _ _, Nat.add_le_add_left hi _⟩
  · rintro ⟨hfirst, hlast⟩
    obtain ⟨i, rfl⟩ := Nat.exists_eq_add_of_le hfirst
    exact ⟨_, mem_groupWrites_iff.2 ⟨i, Nat.le_of_add_le_add_left hlast, rfl⟩, rfl⟩

theorem byteWrites_of_inverse {a x y : Nat} (h : inverse a = some (x, y)) (m : Memory) :
    byteWrites m a = groupWrites y x (Memory.read m a) := by
  rw [byteWrites, h]

theorem byteWrites_forward {k y : Nat} (hk : k ≤ 39) (hy : y ≤ 191) (m : Memory) :
    byteWrites m (forward (7 * k) y) = groupWrites y (7 * k) (lineByte m y k) :=
  byteWrites_of_inverse (inverse_forward hk hy) m

/-- A write outside the raster is discarded (R58). -/
theorem rasterWrite_outside {row col : Nat} (h : ¬(row ≤ 191 ∧ col ≤ 559)) (r : Raster) (p : Pixel) :
    rasterWrite r row col p = r := by
  rw [rasterWrite, if_neg (mt (inRaster_iff row col).1 h)]

/-! ## The command EXPAND (R54) -/

theorem exec_expand (v : Byte) (s : State) :
    exec (.expand v) s = .next { s with response := some ⟨windowResp (shiftOf v) (expand v).2, 0⟩ } := rfl

/-- An EXPAND word with a reserved bit that is 1 (R38). -/
theorem decode_expand_reserved {w : Word} (hop : slice w 31 28 = 3) (h : slice w 27 8 ≠ 0) :
    decode w = .illegal (.reservedBit 3) := by
  simp only [decode, hop]
  exact if_neg h

/-- The bits of EXPAND's response: SHIFT at 15, the window below it, 0 above (R40). -/
theorem windowResp_getLsbD {n : Nat} (hn : n ≤ 1) (window : BitVec 15) (i : Nat) :
    (windowResp n window).getLsbD i = if i = 15 then decide (n = 1) else window.getLsbD i := by
  have hbit : (windowResp n window).getLsbD i = (2 ^ 15 * n + window.toNat).testBit i := by
    rw [BitVec.getLsbD, windowResp_toNat hn, Nat.mul_comm]
  rw [hbit, Nat.testBit_two_pow_mul_add _ window.isLt]
  split
  · next hlow => rw [if_neg (by omega), BitVec.getLsbD]
  · next hhigh =>
    split
    · next h15 => rw [h15, Nat.sub_self, Nat.testBit_zero, Nat.mod_eq_of_lt (Nat.lt_succ_of_le hn)]
    · next h15 =>
      rw [BitVec.getLsbD_of_ge _ _ (by omega)]
      exact Nat.testBit_lt_two_pow (lt_of_le_of_lt hn (Nat.one_lt_two_pow (by omega)))

/-! ## The statements -/

/-- Settles O26: a valid address is a byte column's, and the byte's writes take their values from its window. -/
theorem columnsOfOneByte : Obligations.ColumnsOfOneByte := by
  intro m a x y h
  obtain ⟨k, hk, rfl, -, -⟩ := (inverse_eq_some_iff a x y).1 h
  have hcolumn : 2 * (7 * k) = 14 * k := by omega
  refine ⟨k, hk, rfl, ?_⟩
  rw [byteWrites_of_inverse h, groupWrites_eq_window, hcolumn]
  rfl

/-- Settles O27, by the two cases of the word; the corner cases are evaluated or lie outside the write set. -/
theorem expandCommandWord : Obligations.ExpandCommandWord := by
  refine ⟨fun w s hop => ?word, by decide, by decide, by decide, by decide, fun y k => ?off,
    fun v hs => expand_getLsbD_outside ?first, fun v hs => expand_getLsbD_outside ?last, fun s => rfl⟩
  case word =>
    split
    · next h => exact runCommand_of_illegal (decode_expand_reserved hop h) s
    · next h =>
      have hrow : OpcodeRow.expand.holds w = true := (expand_row_holds_iff w).2 ⟨hop, by omega⟩
      rw [runCommand_of_instr (decode_of_expand_row hrow), exec_expand]
      rfl
  case off =>
    have hoff : ∀ i ∈ List.range 14, sample 0x80 (i / 2) = false := by decide
    have hcolumn : 2 * (7 * k) = 14 * k := by omega
    rw [groupWrites_eq_samples, hcolumn]
    refine List.map_congr_left fun i hi => ?_
    rw [hoff i hi]
    rfl
  case first =>
    rw [expand_fst] at hs
    omega
  case last =>
    rw [expand_fst] at hs
    omega

/-- Settles O28: the response holds the shift and the window, whose positions are known for either shift. -/
theorem expandCompletes : Obligations.ExpandCompletes := by
  intro v s
  refine ⟨_, exec_expand v s, fun i => ?_⟩
  rw [windowResp_getLsbD (shiftOf_le v), expand_getLsbD_eq]
  cases hshift : v.getLsbD 7 with
  | true => simp [shiftOf_of_shifted hshift, sample]
  | false => simp [shiftOf_of_unshifted hshift, sample]

/-- Settles O29: the window of bytes with one shift is computed position by position from the byte's bits. -/
theorem expandLanes : Obligations.ExpandLanes := by
  refine ⟨fun v b hb => ?lane, fun u v h7 => ?pair⟩
  case lane =>
    rw [expand_fst, Nat.add_comm (2 * b)]
    exact expand_getLsbD_lane v hb
  case pair =>
    have hor : shiftOf v = shiftOf (u ||| v) := shiftOf_congr (by rw [BitVec.getLsbD_or, h7, Bool.or_self])
    have hand : shiftOf v = shiftOf (u &&& v) := shiftOf_congr (by rw [BitVec.getLsbD_and, h7, Bool.and_self])
    have huv : shiftOf u = shiftOf v := shiftOf_congr h7
    refine ⟨huv, BitVec.eq_of_getLsbD_eq fun i _ => ?or, BitVec.eq_of_getLsbD_eq fun i _ => ?and, fun b hb hub => ?alike⟩
    case or =>
      rw [BitVec.getLsbD_or]
      exact expand_getLsbD_bitwise rfl (fun _ => BitVec.getLsbD_or) (huv.trans hor) hor i
    case and =>
      rw [BitVec.getLsbD_and]
      exact expand_getLsbD_bitwise rfl (fun _ => BitVec.getLsbD_and) (huv.trans hand) hand i
    case alike =>
      obtain ⟨huleft, huright⟩ := expand_getLsbD_lane u hb
      obtain ⟨hvleft, hvright⟩ := expand_getLsbD_lane v hb
      rw [expand_fst, expand_fst, Nat.add_comm (2 * b), Nat.add_comm (2 * b), huleft, huright, hvleft, hvright]
      exact ⟨hub, hub⟩

/-- Settles O30: byte column k writes the 14 columns from 14 k + s on. -/
theorem writtenColumnRange : Obligations.WrittenColumnRange := by
  intro m k y hk hy
  have hs := shiftOf_le (lineByte m y k)
  rw [byteWrites_forward hk hy, exists_groupWrites_col_iff, exists_groupWrites_col_iff, ← shiftOf_eq_one_iff,
    ← shiftOf_eq_zero_iff]
  refine ⟨fun w hw => ?range, by omega, by omega, fun w hw hcol => ?last,
    fun r p => rasterWrite_outside (by omega) r p⟩
  case range =>
    obtain ⟨i, hi, rfl⟩ := mem_groupWrites_iff.1 hw
    exact ⟨rfl, by simp only; omega⟩
  case last =>
    obtain ⟨i, hi, rfl⟩ := mem_groupWrites_iff.1 hw
    simp only at hcol ⊢
    have hbit : i / 2 = 6 := by omega
    rw [hbit]

/-- Settles O25: every clause is a reading of the window's positions or of the list of writes. -/
theorem expandWindow : Obligations.ExpandWindow := by
  refine fun v => ⟨shiftOf_eq_bits v, fun x y => ?columns, fun i _ => expand_getLsbD_eq v i,
    fun b hb => expand_getLsbD_lane v hb⟩
  case columns =>
    rw [groupWrites_eq_samples, List.map_map]
    exact List.map_congr_left fun i _ => Nat.add_assoc _ _ _

end Sys2Proof.Machine
end

section
/-! The obligations of 42_raster_writer.md: one raster write, the 14 writes of a byte, and the command RDPIX. -/
namespace Sys2Proof.Machine

/-! ## The writes of a pass (R58) -/

/-- A write of a pass is one of a byte column's group. -/
theorem mem_passWrites {m : Memory} {w : PixelWrite} (h : w ∈ passWrites m) :
    ∃ k y, k ≤ 39 ∧ y ≤ 191 ∧ w ∈ groupWrites y (7 * k) (lineByte m y k) := by
  obtain ⟨a, -, hw⟩ := List.mem_flatMap.1 h
  cases ha : inverse a with
  | none => simp [byteWrites, ha] at hw
  | some xy =>
    obtain ⟨k, hk, -, hy, rfl⟩ := (inverse_eq_some_iff a xy.1 xy.2).1 ha
    exact ⟨k, xy.2, hk, hy, byteWrites_forward hk hy m ▸ hw⟩

/-! ## The writes of one byte (R59) -/

/-- The 14 columns of a byte's writes are consecutive. -/
theorem map_col_groupWrites (y x : Nat) (v : Byte) :
    (groupWrites y x v).map PixelWrite.col = (List.range 14).map (2 * x + shiftOf v + ·) := by
  rw [groupWrites_eq_samples, List.map_map]
  rfl

/-- Whatever the order of a byte's writes, one cell gets the same ones: there is at most one. -/
theorem writesTo_of_perm_groupWrites {ws : List PixelWrite} {y x : Nat} {v : Byte}
    (h : ws.Perm (groupWrites y x v)) (row col : Nat) :
    writesTo row col ws = writesTo row col (groupWrites y x v) := by
  have hperm : (writesTo row col ws).Perm (writesTo row col (groupWrites y x v)) := h.filter _
  revert hperm
  rw [writesTo_groupWrites]
  split
  · exact List.perm_singleton.1
  · exact List.perm_nil.1

/-- A pixel after a byte's writes: its window bit inside the write set, else unchanged. -/
theorem rasterRead_writeGroup {r : Raster} (h : Raster.wf r = true) (y x : Nat) (v : Byte) {row col : Nat}
    (hin : inRaster row col = true) :
    rasterRead (writeGroup r y x v) row col =
      if row = y ∧ 2 * x + shiftOf v ≤ col ∧ col ≤ 2 * x + shiftOf v + 13 then (expand v).2.getLsbD (col - 2 * x)
      else rasterRead r row col := by
  rw [writeGroup, rasterRead_foldl_apply h _ hin, writesTo_groupWrites]
  split
  · next hcell =>
    obtain ⟨rfl, hfirst, hlast⟩ := hcell
    rw [if_pos ⟨rfl, hfirst, hlast⟩, expand_getLsbD_eq, if_pos (by omega), Nat.sub_add_eq]
    rfl
  · next hcell =>
    rw [if_neg fun ⟨hrow, hcols⟩ => hcell ⟨hrow.symm, hcols⟩]
    rfl

/-! ## A raster of writes that are all off -/

theorem rasterRead_foldl_apply_off {ws : List PixelWrite} (h : ∀ w ∈ ws, w.pixel = false) {row col : Nat}
    (hin : inRaster row col = true) : rasterRead (ws.foldl PixelWrite.apply rasterClear) row col = false := by
  rw [rasterRead_foldl_apply rasterClear_wf ws hin]
  cases hlast : (writesTo row col ws).getLast? with
  | none => exact rasterRead_clear row col
  | some w => exact h w (List.mem_of_mem_filter (List.mem_of_getLast? hlast))

/-- The pass over a frame of zeros leaves every pixel off. -/
theorem rasterRead_rasterAfter_zero {m : Memory} (hm : ∀ a, Memory.read m a = 0) (n : Nat) {row col : Nat}
    (hin : inRaster row col = true) : rasterRead (rasterAfter m n) row col = false := by
  rw [rasterAfter_eq]
  refine rasterRead_foldl_apply_off (fun w hw => ?_) hin
  obtain ⟨a, -, hwa⟩ := List.mem_flatMap.1 hw
  cases ha : inverse a with
  | none => simp [byteWrites, ha] at hwa
  | some xy =>
    rw [byteWrites_of_inverse ha, hm a] at hwa
    obtain ⟨i, -, rfl⟩ := mem_groupWrites_iff.1 hwa
    exact BitVec.getLsbD_zero

theorem Memory.read_ofBytes_zeros (n a : Nat) : Memory.read (Memory.ofBytes (List.replicate n 0)) a = 0 := by
  rw [Memory.read_ofBytes, List.getElem?_replicate]
  split <;> rfl

/-! ## The command RDPIX (R62) -/

/-- RDPIX on a cell of a finished raster. -/
theorem execRdpix_pixel {s : State} (hdone : s.status = .done) {col row : Nat} (hin : inRaster row col = true) :
    execRdpix col row s =
      .next { s with response := some ⟨if rasterRead s.raster row col then 1 else 0, 0⟩ } := by
  rw [execRdpix, if_pos hdone, if_pos hin]
  rfl

/-- RDPIX outside the raster, in DONE. -/
theorem execRdpix_domain {s : State} (hdone : s.status = .done) {col row : Nat} (hin : ¬inRaster row col = true) :
    execRdpix col row s = .next { s with response := some ⟨0, 2⟩ } := by
  rw [execRdpix, if_pos hdone, if_neg hin]
  rfl

/-- RDPIX without a finished raster, whatever its operands. -/
theorem execRdpix_notReady {s : State} (hdone : s.status ≠ .done) (col row : Nat) :
    execRdpix col row s = .next { s with response := some ⟨0, 4⟩ } := by
  rw [execRdpix, if_neg hdone]
  rfl

/-- An RDPIX word with a reserved bit that is 1 (R38). -/
theorem decode_rdpix_reserved {w : Word} (hop : slice w 31 28 = 5) (h : slice w 27 24 ≠ 0 ∨ slice w 15 10 ≠ 0) :
    decode w = .illegal (.reservedBit 5) := by
  simp only [decode, hop]
  exact if_neg (by omega)

/-! ## The statements -/

/-- Settles O34: the cell is inside the raster, so neither check raises an error. -/
theorem rdpixCompletes : Obligations.RdpixCompletes := fun col row _ hdone hcol hrow =>
  execRdpix_pixel hdone ((inRaster_iff row col).2 ⟨hrow, hcol⟩)

/-- Settles O31: byte column k writes up to column 14 k + s + 13, which is 560 for k = 39 and s = 1 only. -/
theorem rasterWriteCell : Obligations.RasterWriteCell := by
  refine ⟨fun m w hw => ?pass, fun r row col p hr => ⟨fun hin => ⟨rasterWrite_wf hr row col p, fun row' col' => ?cell⟩,
    fun hout => rasterWrite_outside hout r p⟩⟩
  case pass =>
    obtain ⟨k, y, hk, hy, hgroup⟩ := mem_passWrites hw
    obtain ⟨i, hi, rfl⟩ := mem_groupWrites_iff.1 hgroup
    refine ⟨hy, ?_⟩
    simp only
    have hs := shiftOf_le (lineByte m y k)
    by_cases hlast : k = 39
    · subst hlast
      rw [← shiftOf_eq_one_iff]
      omega
    · omega
  case cell =>
    rw [rasterRead_rasterWrite hr, (inRaster_iff row col).2 hin]
    simp only [true_and]

/-- Settles O32: a cell gets at most one of the 14 writes, in whatever order they are made. -/
theorem writeGroupColumns : Obligations.WriteGroupColumns := by
  intro r y x v hr _
  refine ⟨rfl, ?nodup, fun row col hrow hcol => ?read, fun ws hperm row col hrow hcol => ?order⟩
  case nodup =>
    rw [map_col_groupWrites]
    exact List.nodup_range.map (add_right_injective _)
  case read => exact rasterRead_writeGroup hr y x v ((inRaster_iff row col).2 ⟨hrow, hcol⟩)
  case order =>
    have hin := (inRaster_iff row col).2 ⟨hrow, hcol⟩
    rw [writeGroup, rasterRead_foldl_apply hr ws hin, rasterRead_foldl_apply hr _ hin,
      writesTo_of_perm_groupWrites hperm]

/-- Settles O33, by the cases of the word and the state in the order of R62's checks; a frame of zeros leaves every
pixel off. -/
theorem rdpixCommandWord : Obligations.RdpixCommandWord := by
  refine ⟨fun w s hop => ?word, fun s t hzeros ht => ?zeros⟩
  case word =>
    split
    · next h => exact runCommand_of_illegal (decode_rdpix_reserved hop h) s
    · next h =>
      have hrow : OpcodeRow.rdpix.holds w = true := (rdpix_row_holds_iff w).2 ⟨hop, by omega⟩
      rw [runCommand_of_instr (decode_of_rdpix_row hrow)]
      split
      · next hdone => exact execRdpix_notReady hdone _ _
      · next hdone =>
        have hdone : s.status = .done := not_not.1 hdone
        split
        · next hdomain => exact execRdpix_domain hdone (by rw [inRaster_iff]; omega)
        · next hdomain => exact execRdpix_pixel hdone ((inRaster_iff _ _).2 (by omega))
  case zeros =>
    have hlength : s.inbuf.length = 8192 := by rw [hzeros, List.length_replicate]
    cases (runCommand_dframe_frame hlength).symm.trans ht
    have hdecode : decode 0x50BF022F#32 = .instr (.rdpix 559 191) := by decide
    have hin : inRaster 191 559 = true := by decide
    rw [runCommand_of_instr hdecode, exec, execRdpix_pixel rfl hin, hzeros,
      rasterRead_rasterAfter_zero (Memory.read_ofBytes_zeros 8192) 8192 hin]
    rfl

end Sys2Proof.Machine
end

section
/-! The obligations of 43_frame_decoder.md: the pass and its steps, the closed form of the raster it leaves, and the
commands DFRAME and RDSTAT. -/
namespace Sys2Proof.Machine

/-! ## Pass steps (R63, R64) -/

/-- On a hole a pass step's decoding leaves the raster alone. -/
theorem decodeByte_of_hole {a : Nat} (h : inverse a = none) (m : Memory) (r : Raster) : decodeByte m a r = r := by
  rw [decodeByte, h]

/-- On a valid byte a pass step's decoding is the byte's WriteGroup. -/
theorem decodeByte_of_inverse {a x y : Nat} (h : inverse a = some (x, y)) (m : Memory) (r : Raster) :
    decodeByte m a r = writeGroup r y x (Memory.read m a) := by
  rw [decodeByte, h]

/-- Where R63's guard fails, a pass step does nothing. -/
theorem passStep_eq_self {s : State} (h : ¬(s.status = .running ∧ s.cursor.toNat < 8192)) : passStep s = s := by
  unfold passStep
  split
  · rfl
  · exact if_neg h

/-- Settles O35: where the step runs, the cases of the address; elsewhere the guard fails. -/
theorem passStepEffect : Obligations.PassStepEffect := by
  refine fun s m hfb => ⟨fun hrun hcursor => ?runs,
    fun h => passStep_eq_self fun ⟨hrun, hlt⟩ => h ⟨hrun, Nat.le_of_lt_succ hlt⟩⟩
  case runs =>
    have hlt : s.cursor.toNat < 8192 := by omega
    rw [passStep_running hfb hrun hlt]
    refine ⟨cursor_succ hlt, fun hhole => ?_, fun x y hxy => ?_⟩
    · rw [decodeByte_of_hole hhole]
    · rw [decodeByte_of_inverse hxy]

/-- Settles O36, by the closed form of n pass steps. -/
theorem passRunsEveryAddress : Obligations.PassRunsEveryAddress := by
  refine fun s m hfb hrun hcursor => ⟨fun n hn => ⟨?cursor, ?status⟩, fun n _ => passSteps_succ n s, ?whole⟩
  case cursor =>
    rw [passSteps_eq hfb hrun hcursor hn, BitVec.toNat_ofNat]
    omega
  case status => rw [passSteps_status, hrun]
  case whole =>
    rw [pass, passSteps_eq hfb hrun hcursor (Nat.le_refl _)]
    simp only [finishPass]
    rfl

/-! ## DFRAME as its internal steps (R64) -/

/-- A pass step does not look at the response. -/
theorem passStep_waitForHost (s : State) : passStep (waitForHost s) = waitForHost (passStep s) := by
  simp only [passStep, waitForHost_fb, waitForHost_status, waitForHost_cursor]
  cases s.fb with
  | none => rfl
  | some m =>
    dsimp only
    rw [apply_ite waitForHost]
    rfl

theorem passSteps_waitForHost (n : Nat) (s : State) : passSteps n (waitForHost s) = waitForHost (passSteps n s) := by
  induction n generalizing s with
  | zero => rfl
  | succ n ih => rw [passSteps, passStep_waitForHost, ih, passSteps]

/-- Before its end a pass advances by one pass step, and no response is given. -/
theorem step_midPass {s : State} (hfb : s.fb.isSome = true) (hrun : s.status = .running)
    (hreset : resetArrives s = false) (hcursor : s.cursor.toNat < 8192) :
    step s = .next (waitForHost (passStep s)) := by
  rw [step_running hrun hreset, sequencerStep, if_pos ⟨hfb, Nat.le_of_lt hcursor⟩, if_neg (Nat.ne_of_lt hcursor)]

/-- With CURSOR at 8192 the pass ends and DFRAME responds. -/
theorem step_passEnd {s : State} (hfb : s.fb.isSome = true) (hrun : s.status = .running)
    (hreset : resetArrives s = false) (hcursor : s.cursor.toNat = 8192) :
    step s = .next (respond (finishPass s) 0 .ok) := by
  rw [step_running hrun hreset, sequencerStep, if_pos ⟨hfb, Nat.le_of_eq hcursor⟩, if_pos hcursor]

/-- From a state with n bytes to go, n + 1 steps do the n pass steps, end the pass and respond. -/
theorem run_to_passEnd {n : Nat} {s : State} (hfb : s.fb.isSome = true) (hrun : s.status = .running)
    (hreset : resetArrives s = false) (hcursor : s.cursor.toNat + n = 8192) :
    Host.Core.run core (n + 1) s = .next (respond (finishPass (passSteps n s)) 0 .ok) := by
  induction n generalizing s with
  | zero => exact run_succ 0 (step_passEnd hfb hrun hreset hcursor)
  | succ n ih =>
    obtain ⟨m, hm⟩ := Option.isSome_iff_exists.1 hfb
    have hlt : s.cursor.toNat < 8192 := by omega
    have hnext : (passStep s).cursor.toNat = s.cursor.toNat + 1 := by
      rw [passStep_running hm hrun hlt]
      exact cursor_succ hlt
    rw [run_succ _ (step_midPass hfb hrun hreset hlt), ih, passSteps_waitForHost, passSteps]
    · rfl
    · rw [waitForHost_fb, passStep_fb, hfb]
    · rw [waitForHost_status, passStep_status, hrun]
    · rw [resetArrives, waitForHost_pending, passStep_pending]
      exact hreset
    · rw [waitForHost_cursor, hnext]
      omega

/-- Settles O37: the start of a frame has 8192 bytes to go. -/
theorem atomicFrameIsItsSteps : Obligations.AtomicFrameIsItsSteps := by
  intro s hl hreset
  rw [exec, execDframe, if_pos hl]
  exact run_to_passEnd (n := 8192) (s := startFrame s) rfl rfl hreset (by simp)

/-! ## The writes of a pass to one cell (R68, R69)

A byte column writes the 14 columns from 14 k or 14 k + 1 on, so only the columns 14 k are shared between neighbours. -/

/-- A raster column by its byte column and its place in it. -/
theorem column_split (c : Nat) : ∃ k j, j ≤ 13 ∧ c = 14 * k + j :=
  ⟨c / 14, c % 14, by omega, by omega⟩

/-- The leftmost column of a byte column: a shifted byte leaves it out. -/
theorem columnWrite_first (m : Memory) (y k : Nat) :
    columnWrite m y k (14 * k) =
      if shiftBit (lineByte m y k) then [] else [⟨y, 14 * k, sample (lineByte m y k) 0⟩] := by
  unfold columnWrite
  cases h : shiftBit (lineByte m y k) with
  | true =>
    rw [shiftOf_of_shifted h, if_neg (by omega)]
    rfl
  | false =>
    rw [shiftOf_of_unshifted h, if_pos (by omega), Nat.add_zero, Nat.sub_self]
    rfl

/-- The leftmost column of the next byte column: a shifted byte reaches into it. -/
theorem columnWrite_next (m : Memory) (y k : Nat) :
    columnWrite m y k (14 * (k + 1)) =
      if shiftBit (lineByte m y k) then [⟨y, 14 * (k + 1), sample (lineByte m y k) 6⟩] else [] := by
  unfold columnWrite
  cases h : shiftBit (lineByte m y k) with
  | true =>
    have hbit : (14 * (k + 1) - (14 * k + 1)) / 2 = 6 := by omega
    rw [shiftOf_of_shifted h, if_pos (by omega), hbit]
    rfl
  | false =>
    rw [shiftOf_of_unshifted h, if_neg (by omega)]
    rfl

/-- The closed form of a column that only its own byte column writes. -/
theorem closedPixel_inside (m : Memory) (y k : Nat) {j : Nat} (hj : 1 ≤ j) (hj' : j ≤ 13) :
    closedPixel m y (14 * k + j) = sample (lineByte m y k) ((j - shiftOf (lineByte m y k)) / 2) := by
  have hk : (14 * k + j) / 14 = k := by omega
  have hmod : (14 * k + j) % 14 = j := by omega
  simp only [closedPixel, hk, hmod]
  cases h : shiftBit (lineByte m y k) with
  | true =>
    rw [shiftOf_of_shifted h, if_pos rfl, if_neg (by omega)]
  | false =>
    rw [shiftOf_of_unshifted h, if_neg (by decide), Nat.sub_zero]

/-- The closed form of the leftmost column of a byte column. -/
theorem closedPixel_first (m : Memory) (y k : Nat) :
    closedPixel m y (14 * k) =
      if shiftBit (lineByte m y k) then
        if k ≥ 1 ∧ shiftBit (lineByte m y (k - 1)) then sample (lineByte m y (k - 1)) 6 else false
      else sample (lineByte m y k) 0 := by
  have hk : 14 * k / 14 = k := by omega
  have hmod : 14 * k % 14 = 0 := by omega
  simp only [closedPixel, hk, hmod, if_true, Nat.zero_div]

/-- Every column of a byte column but its leftmost is written once, with the closed form as its value. -/
theorem writesTo_passWrites_inside (m : Memory) {y k j : Nat} (hy : y ≤ 191) (hk : k ≤ 39) (hj : 1 ≤ j)
    (hj' : j ≤ 13) :
    writesTo y (14 * k + j) (passWrites m) = [⟨y, 14 * k + j, closedPixel m y (14 * k + j)⟩] := by
  have hs := shiftOf_le (lineByte m y k)
  have hbit : 14 * k + j - (14 * k + shiftOf (lineByte m y k)) = j - shiftOf (lineByte m y k) := by omega
  have hdiv : (14 * k + j) / 14 = k := by omega
  rw [passWrites, writesTo_order m keepsLines_range hy (by omega), if_neg (by omega), hdiv, if_pos hk, columnWrite,
    if_pos (by omega), hbit, closedPixel_inside m y k hj hj']
  rfl

/-- The first column of a line belongs to its first byte alone. -/
theorem writesTo_passWrites_lineStart (m : Memory) {y : Nat} (hy : y ≤ 191) :
    writesTo y 0 (passWrites m) = columnWrite m y 0 0 :=
  writesTo_order m keepsLines_range hy (by omega)

/-- Where two byte columns meet, the left one writes first. -/
theorem writesTo_passWrites_between (m : Memory) {y k : Nat} (hy : y ≤ 191) (hk : k ≤ 38) :
    writesTo y (14 * (k + 1)) (passWrites m) =
      columnWrite m y k (14 * (k + 1)) ++ columnWrite m y (k + 1) (14 * (k + 1)) := by
  have hdiv : 14 * (k + 1) / 14 = k + 1 := by omega
  rw [passWrites, writesTo_order m keepsLines_range hy (by omega), hdiv, if_pos (by omega), if_pos (by omega),
    Nat.add_sub_cancel]

/-- Beyond the end of a line only its last byte writes. -/
theorem writesTo_passWrites_lineEnd (m : Memory) {y : Nat} (hy : y ≤ 191) :
    writesTo y 560 (passWrites m) = columnWrite m y 39 560 := by
  rw [passWrites, writesTo_order m keepsLines_range hy (by omega)]
  exact List.append_nil _

/-- A cell that a pass writes to is in one of the columns 0 to 560 of a line. -/
theorem range_of_writesTo_passWrites {m : Memory} {y c : Nat} (h : writesTo y c (passWrites m) ≠ []) :
    y ≤ 191 ∧ c ≤ 560 := by
  obtain ⟨w, hw⟩ := List.exists_mem_of_ne_nil _ h
  obtain ⟨hmem, hcell⟩ := List.mem_filter.1 hw
  rw [Bool.and_eq_true, beq_iff_eq, beq_iff_eq] at hcell
  obtain ⟨rfl, rfl⟩ := hcell
  obtain ⟨hrow, hcol⟩ := rasterWriteCell.1 m w hmem
  exact ⟨hrow, by omega⟩

/-! ## The closed form (R67) -/

theorem rasterAfter_eq_passWrites (m : Memory) :
    rasterAfter m 8192 = (passWrites m).foldl PixelWrite.apply rasterClear := by
  rw [passWrites]
  exact rasterAfter_eq m Config.fbSize

/-- A pixel after a pass is that of the pass's last write to it, or else off. -/
theorem rasterRead_rasterAfter_eq_lastWrite (m : Memory) {y c : Nat} (hy : y ≤ 191) (hc : c ≤ 559) :
    rasterRead (rasterAfter m 8192) y c = ((writesTo y c (passWrites m)).getLast?.map PixelWrite.pixel).getD false := by
  rw [rasterAfter_eq_passWrites, rasterRead_foldl_apply rasterClear_wf _ ((inRaster_iff y c).2 ⟨hy, hc⟩),
    rasterRead_clear]

/-- Every pixel after a whole pass, by the place of its column in its byte column. -/
theorem rasterRead_rasterAfter_frame (m : Memory) {y c : Nat} (hy : y ≤ 191) (hc : c ≤ 559) :
    rasterRead (rasterAfter m 8192) y c = closedPixel m y c := by
  rw [rasterRead_rasterAfter_eq_lastWrite m hy hc]
  obtain ⟨k, j, hj, rfl⟩ := column_split c
  rcases Nat.eq_zero_or_pos j with rfl | hpos
  · rw [Nat.add_zero, closedPixel_first]
    cases k with
    | zero =>
      rw [writesTo_passWrites_lineStart m hy, columnWrite_first m y 0]
      cases shiftBit (lineByte m y 0) <;> rfl
    | succ k =>
      rw [writesTo_passWrites_between m hy (by omega), columnWrite_next, columnWrite_first, Nat.add_sub_cancel]
      cases shiftBit (lineByte m y (k + 1)) <;> cases shiftBit (lineByte m y k) <;> simp
  · rw [writesTo_passWrites_inside m hy (by omega) hpos hj]
    rfl

/-- Settles O40: the closed form at column 14 k + j, by bit 7 of the byte and by j. -/
theorem rasterClosedForm : Obligations.RasterClosedForm := by
  intro s t m hl ht hfb y k j hy hk hj
  cases (execDframe_frame hl).symm.trans ht
  cases hfb
  have hdiv : (14 * k + j) / 14 = k := by omega
  have hmod : (14 * k + j) % 14 = j := by omega
  rw [rasterRead_rasterAfter_frame _ hy (by omega)]
  simp only [closedPixel, hdiv, hmod, shiftBit]
  refine ⟨fun h => ?unshifted, fun h hpos => ?shifted, fun h hzero => ?first⟩
  case unshifted =>
    rw [if_neg (Bool.eq_false_iff.1 h)]
    rfl
  case shifted =>
    rw [if_pos h, if_neg (by omega)]
    rfl
  case first =>
    rw [if_pos h, if_pos hzero]
    rfl

/-- Settles O59: at the port the pass of the frame in FB is complete. -/
theorem invariantRasterIsClosedForm : Obligations.InvariantRasterIsClosedForm := by
  intro s m hinv hport hfb row col hrow hcol
  have hcursor : s.cursor.toNat = 8192 := (hinv.passComplete m hfb).2 hport
  rw [hinv.rasterOfFrame m hfb, hcursor]
  exact rasterRead_rasterAfter_frame m hrow hcol

/-! ## Overlap (R68) -/

/-- Two writes to one cell: it is the leftmost column of an unshifted byte whose left neighbour is shifted. -/
theorem overlap_of_two_writes {m : Memory} {y c : Nat} (h : 2 ≤ (writesTo y c (passWrites m)).length) :
    ∃ k, k ≤ 38 ∧ y ≤ 191 ∧ c = 14 * (k + 1) ∧ shiftBit (lineByte m y k) = true ∧
      shiftBit (lineByte m y (k + 1)) = false := by
  obtain ⟨hy, hc⟩ := range_of_writesTo_passWrites (List.ne_nil_of_length_pos (Nat.lt_of_lt_of_le Nat.zero_lt_two h))
  obtain ⟨k, j, hj, rfl⟩ := column_split c
  rcases Nat.eq_zero_or_pos j with rfl | hpos
  · cases k with
    | zero =>
      rw [writesTo_passWrites_lineStart m hy, columnWrite_first m y 0] at h
      split at h <;> simp at h
    | succ k =>
      by_cases hk : k ≤ 38
      · refine ⟨k, hk, hy, rfl, ?_⟩
        rw [Nat.add_zero, writesTo_passWrites_between m hy hk, columnWrite_next, columnWrite_first] at h
        cases hleft : shiftBit (lineByte m y k) <;> cases hright : shiftBit (lineByte m y (k + 1)) <;>
          simp [hleft, hright] at h ⊢
      · obtain rfl : k = 39 := by omega
        rw [writesTo_passWrites_lineEnd m hy, columnWrite_next m y 39] at h
        split at h <;> simp at h
  · rw [writesTo_passWrites_inside m hy (by omega) hpos hj] at h
    simp at h

/-- Settles O41: where two byte columns meet, the shifts say which of them write. -/
theorem overlapLaterByteWins : Obligations.OverlapLaterByteWins := by
  refine fun m => ⟨fun k y hk hy hleft hright => ⟨?writes, ?read⟩, fun y c => overlap_of_two_writes,
    fun k y hk hy => ⟨forward_succ k y, fun hleft hright => ⟨?on, ?off⟩, fun hleft hright => ?kept⟩⟩
  case writes =>
    rw [writesTo_passWrites_between m hy hk, columnWrite_next, columnWrite_first, hleft, hright]
    rfl
  case read =>
    rw [rasterRead_rasterAfter_frame m hy (by omega), closedPixel_first, hright]
    rfl
  case on =>
    rw [rasterRead_rasterAfter_frame m hy (by omega), closedPixel_inside m y k (by decide) (by decide), hleft]
    rfl
  case off =>
    rw [rasterRead_rasterAfter_frame m hy (by omega), ← Nat.mul_succ, closedPixel_first, hright]
    rfl
  case kept =>
    rw [rasterRead_rasterAfter_frame m hy (by omega), ← Nat.mul_succ, closedPixel_first, Nat.succ_sub_one, hleft, hright]
    rw [if_pos (by decide), if_pos ⟨Nat.le_add_left 1 k, by decide⟩]
    rfl

/-! ## Unwritten and discarded cells (R69) -/

/-- The leftmost column of a byte column is unwritten when its byte is shifted and the byte before it is not. -/
theorem writesTo_passWrites_first_eq_nil_iff (m : Memory) {y k : Nat} (hy : y ≤ 191) (hk : k ≤ 39) :
    writesTo y (14 * k) (passWrites m) = [] ↔
      shiftBit (lineByte m y k) = true ∧ (k = 0 ∨ shiftBit (lineByte m y (k - 1)) = false) := by
  cases k with
  | zero =>
    rw [writesTo_passWrites_lineStart m hy, columnWrite_first m y 0]
    simp
  | succ k =>
    rw [writesTo_passWrites_between m hy (by omega), columnWrite_next, columnWrite_first]
    simp [and_comm]

/-- A frame of shifted bytes that are all on: no byte reaches column 0, and every other pixel is on. -/
theorem closedPixel_of_all_0xFF {m : Memory} (hm : ∀ a, a < 8192 → Memory.read m a = 0xFF) {y c : Nat} (hy : y ≤ 191)
    (hc : c ≤ 559) : closedPixel m y c = decide (c ≠ 0) := by
  have hbyte : ∀ k, k ≤ 39 → lineByte m y k = 0xFF := fun k hk => hm _ (forward_lt hk hy)
  have hon : ∀ b ≤ 6, sample 0xFF b = true := by decide
  obtain ⟨k, j, hj, rfl⟩ := column_split c
  rcases Nat.eq_zero_or_pos j with rfl | hpos
  · rw [Nat.add_zero, closedPixel_first, hbyte k (by omega), hbyte (k - 1) (by omega)]
    cases k <;> rfl
  · rw [closedPixel_inside m y k hpos hj, hbyte k (by omega), hon _ (by omega), eq_comm, decide_eq_true_iff]
    omega

/-- Settles O42, by the place of a column in its byte column. -/
theorem unwrittenAndDiscarded : Obligations.UnwrittenAndDiscarded := by
  refine fun m => ⟨fun k y hk hy => ⟨writesTo_passWrites_first_eq_nil_iff m hy hk, fun h => ?off⟩,
    fun y c hy hc hmod => ?inside, fun y hy => ?lineEnd, fun w hw => ?range,
    fun r y p => rasterWrite_outside (by omega) r p, fun hm y c hy hc => ?allOn⟩
  case off =>
    rw [rasterRead_rasterAfter_eq_lastWrite m hy (by omega), h]
    rfl
  case inside =>
    rw [← Nat.div_add_mod c 14, writesTo_passWrites_inside m hy (by omega) (by omega) (by omega)]
    exact List.cons_ne_nil _ _
  case lineEnd =>
    rw [writesTo_passWrites_lineEnd m hy, columnWrite_next m y 39]
    simp
  case range =>
    obtain ⟨hrow, hcol⟩ := rasterWriteCell.1 m w hw
    exact ⟨hrow, by omega⟩
  case allOn => rw [rasterRead_rasterAfter_frame m hy hc, closedPixel_of_all_0xFF hm hy hc]

/-! ## Holes (R70) -/

/-- Frames that agree at the valid addresses ask for the same writes. -/
theorem byteWrites_congr {m m' : Memory} (h : ∀ a, isValidAddress a = true → Memory.read m a = Memory.read m' a)
    (a : Nat) : byteWrites m a = byteWrites m' a := by
  unfold byteWrites
  cases ha : inverse a with
  | none => rfl
  | some xy => simp only [h a (isValidAddress_of_inverse ha)]

theorem rasterAfter_congr {m m' : Memory} (h : ∀ a, isValidAddress a = true → Memory.read m a = Memory.read m' a)
    (n : Nat) : rasterAfter m n = rasterAfter m' n := by
  rw [rasterAfter_eq, rasterAfter_eq, funext (byteWrites_congr h)]

/-- Settles O43: no pass step reads a hole. -/
theorem holesDoNotMatter : Obligations.HolesDoNotMatter := by
  intro s t s' t' hs ht hbytes hs' ht'
  cases (execDframe_frame hs).symm.trans hs'
  cases (execDframe_frame ht).symm.trans ht'
  dsimp only
  refine rasterAfter_congr (fun a ha => ?_) 8192
  rw [Memory.read_ofBytes, Memory.read_ofBytes, hbytes a ha]

/-! ## The command DFRAME (R65, R66) -/

/-- A DFRAME word with a reserved bit that is 1 (R38). -/
theorem decode_dframe_reserved {w : Word} (hop : slice w 31 28 = 4) (h : slice w 27 0 ≠ 0) :
    decode w = .illegal (.reservedBit 4) := by
  simp only [decode, hop]
  exact if_neg h

/-- The word of DFRAME, by its fields. -/
theorem eq_dframe_word_of_fields {w : Word} (hop : slice w 31 28 = 4) (h : slice w 27 0 = 0) : w = 0x40000000#32 :=
  (decode_eq_dframe_iff w).1 (decode_of_dframe_row ((dframe_row_holds_iff w).2 ⟨hop, h⟩))

/-- Settles O38, by the three cases of the word and the buffer. -/
theorem dframeCommandWord : Obligations.DframeCommandWord := by
  refine fun w s hop => ⟨fun h => runCommand_of_illegal (decode_dframe_reserved hop h) s, fun h hl => ?reject,
    fun h hl => ?frame⟩
  case reject =>
    obtain rfl := eq_dframe_word_of_fields hop h
    exact ⟨runCommand_dframe_reject hl, execRdpix_notReady (by simp)⟩
  case frame =>
    obtain rfl := eq_dframe_word_of_fields hop h
    refine ⟨runCommand_dframe_frame hl, fun a ha => Memory.read_ofBytes_of_lt ha, fun hzeros row col hrow hcol => ?_⟩
    rw [hzeros]
    exact rasterRead_rasterAfter_zero (Memory.read_ofBytes_zeros 8192) 8192 ((inRaster_iff row col).2 ⟨hrow, hcol⟩)

/-- Settles O39: DFRAME's whole next state, with the closed form of its raster. -/
theorem dframeCompletes : Obligations.DframeCompletes := by
  refine fun s hl => ⟨_, execDframe_frame hl, rfl, rfl, by simp, rfl, rfl, rfl, ?canonical,
    fun row col hrow hcol => ?pixel⟩
  all_goals dsimp only
  case canonical => exact rasterAfter_wf _ _
  case pixel => exact rasterRead_rasterAfter_frame _ hrow hcol

/-! ## The command RDSTAT (R71) -/

theorem exec_rdstat (s : State) : exec .rdstat s = .next { s with response := some ⟨statusWord s.status, 0⟩ } := rfl

/-- An RDSTAT word with a reserved bit that is 1 (R38). -/
theorem decode_rdstat_reserved {w : Word} (hop : slice w 31 28 = 6) (h : slice w 27 0 ≠ 0) :
    decode w = .illegal (.reservedBit 6) := by
  simp only [decode, hop]
  exact if_neg h

/-- Only a running pass reads as 3 (R11). -/
theorem statusWord_ne_three {st : RunState} (h : st ≠ .running) : statusWord st ≠ 3 := by
  cases st with
  | running => exact absurd rfl h
  | idle => decide
  | done => decide
  | sizeError => decide

/-- Settles O44: RDSTAT's response is the number of STATE. -/
theorem rdstatCommandWord : Obligations.RdstatCommandWord := by
  have hdecode : decode 0x60000000#32 = .instr .rdstat := by decide
  refine ⟨fun w s hop => ?word, fun s t r hport ht hr => ?port, fun t ht => ?reset, fun s t hl ht => ?size⟩
  case word =>
    split
    · next h => exact runCommand_of_illegal (decode_rdstat_reserved hop h) s
    · next h =>
      have hrow : OpcodeRow.rdstat.holds w = true := (rdstat_row_holds_iff w).2 ⟨hop, not_not.1 h⟩
      rw [runCommand_of_instr (decode_of_rdstat_row hrow)]
      exact exec_rdstat s
  case port =>
    cases (exec_rdstat s).symm.trans ht
    cases hr
    exact statusWord_ne_three hport
  case reset =>
    rw [runCommand_of_instr hdecode] at ht
    cases ht
    rfl
  case size =>
    have hl' : s.inbuf.length ≠ 8192 := by omega
    cases (runCommand_dframe_reject hl').symm.trans ht
    rw [runCommand_of_instr hdecode]
    rfl

/-- Settles O45: RESP is STATUS, a closed word for each STATE. -/
theorem rdstatCompletes : Obligations.RdstatCompletes := by
  refine fun s => ⟨_, exec_rdstat s, ?_⟩
  cases s.status <;> decide

end Sys2Proof.Machine
end

section
/-! The obligations of 60_exceptions.md: when each error is answered, by which command, and what it leaves unchanged. -/
namespace Sys2Proof.Machine

/-! ## When each error is answered (R72, R74) -/

/-- The words of no row of the opcode table are the illegal ones (R38). -/
theorem no_row_holds_iff (w : Word) :
    (∀ row ∈ opcodeTable, row.holds w = false) ↔ ∃ why, decode w = .illegal why := by
  refine ⟨decode_of_no_row, fun ⟨why, hd⟩ row hrow => ?_⟩
  by_contra hholds
  obtain ⟨i, hi⟩ := decode_of_row hrow (Bool.of_not_eq_false hholds)
  cases hd.symm.trans hi

/-- DFRAME with a buffer of another length than a frame's (R66). -/
theorem execDframe_reject {s : State} (h : s.inbuf.length ≠ 8192) :
    execDframe s = .next { s with status := .sizeError, response := some ⟨0, 3⟩ } := by
  rw [execDframe, if_neg h]
  rfl

/-- Settles O46, by the word's command and, for each command, the checks it makes in R74's order. -/
theorem errorCauses : Obligations.ErrorCauses := by
  intro w s t r ht hr
  rw [no_row_holds_iff]
  cases hd : decode w with
  | illegal why =>
    cases (runCommand_of_illegal hd s).symm.trans ht
    cases hr
    simp
  | instr i =>
    rw [runCommand_of_instr hd] at ht
    cases i with
    | fwd x y =>
      by_cases hdomain : x > 279 ∨ y > 191
      · cases (execFwd_domain hdomain s).symm.trans ht
        cases hr
        simpa using hdomain
      · cases (execFwd_address (by omega) (by omega) s).symm.trans ht
        cases hr
        simpa using hdomain
    | inv a =>
      cases ht
      cases hr
      simp [Err.code]
    | expand v =>
      cases (exec_expand v s).symm.trans ht
      cases hr
      simp
    | dframe =>
      by_cases hl : s.inbuf.length = 8192
      · cases (execDframe_frame hl).symm.trans ht
        cases hr
        simp [hl]
      · cases (execDframe_reject hl).symm.trans ht
        cases hr
        simp [hl]
    | rdpix col row =>
      by_cases hdone : s.status = .done
      · by_cases hdomain : col > 559 ∨ row > 191
        · cases (execRdpix_domain hdone (by rw [inRaster_iff]; omega)).symm.trans ht
          cases hr
          simpa [hdone] using hdomain
        · cases (execRdpix_pixel hdone ((inRaster_iff row col).2 (by omega))).symm.trans ht
          cases hr
          simpa [hdone] using hdomain
      · cases (execRdpix_notReady hdone col row).symm.trans ht
        cases hr
        simp [hdone]
    | rdstat =>
      cases (exec_rdstat s).symm.trans ht
      cases hr
      simp

/-! ## What an error leaves unchanged (R73) -/

/-- Settles O47: only DFRAME's word writes anything but the response, and only its word answers ERR 3 (O46). -/
theorem errorsChangeNothing : Obligations.ErrorsChangeNothing := by
  refine ⟨fun w s t r ht hr herr => ?error, fun s t hl ht => ?frame⟩
  case error =>
    obtain ⟨-, -, hsize, -⟩ := errorCauses w s t r ht hr
    rw [decode_eq_dframe_iff] at hsize
    obtain ⟨hw, a, hrun⟩ | ⟨hw, hl, hrun⟩ | ⟨hw, hl, hrun⟩ := runCommand_cases w s
    all_goals
      cases hrun.symm.trans ht
      cases hr
    · exact ⟨fun _ => rfl, fun h3 => absurd (hsize.1 h3).1 hw⟩
    · exact ⟨fun h3 => absurd rfl h3, fun _ => rfl⟩
    · exact absurd rfl herr
  case frame =>
    cases (runCommand_dframe_frame hl).symm.trans ht
    rfl

/-! ## The errors of each command (R75) -/

/-- The error codes that have a name (R72). -/
theorem err_cases {e : BitVec 4} (h : e.toNat ≤ 4) : e = 0 ∨ e = 1 ∨ e = 2 ∨ e = 3 ∨ e = 4 := by
  bv_omega

/-- Settles O48: the causes of O46 fix the OP of every error but ILLEGAL_COMMAND. -/
theorem errorsPerCommand : Obligations.ErrorsPerCommand := by
  intro w s t r ht hr
  obtain ⟨-, hdomain, hsize, hready, hle, -⟩ := errorCauses w s t r ht hr
  obtain h0 | h1 | h2 | h3 | h4 := err_cases hle
  · simp [h0]
  · simp [h1]
  · obtain ⟨x, y, hd, -⟩ | ⟨col, row, hd, -⟩ := hdomain.1 h2
    · obtain ⟨hop, -⟩ := (fwd_row_holds_iff w).1 (row_holds_of_decode hd)
      simp [h2, hop]
    · obtain ⟨hop, -⟩ := (rdpix_row_holds_iff w).1 (row_holds_of_decode hd)
      simp [h2, hop]
  · obtain ⟨hd, -⟩ := hsize.1 h3
    obtain ⟨hop, -⟩ := (dframe_row_holds_iff w).1 (row_holds_of_decode hd)
    simp [h3, hop]
  · obtain ⟨col, row, hd, -⟩ := hready.1 h4
    obtain ⟨hop, -⟩ := (rdpix_row_holds_iff w).1 (row_holds_of_decode hd)
    simp [h4, hop]

end Sys2Proof.Machine
end

section
/-! The obligations of 70_reset_and_hazards.md: reset, RDPIX before and after a frame, the order of a pass, and the
commands that read no state. -/
namespace Sys2Proof.Machine

/-! ## Reset (R81, R82) -/

theorem reset_atPort (pending : List HostEvent) : AtPort { State.reset with pending := pending } := by
  simp [AtPort, State.reset]

/-- Settles O49: the reset raster is the cleared one, and with nothing pending the block waits. -/
theorem resetValues : Obligations.ResetValues :=
  ⟨rfl, rasterRead_clear, rfl, rfl, step_port_idle (reset_atPort []) rfl⟩

/-- Settles O56, as the invariant of a state before the first latch. -/
theorem resetMeetsInvariant : Obligations.ResetMeetsInvariant := reset_inv []

/-- Settles O50: the step takes a reset in every state, an overtaken command leaves nothing, and reset is not DONE. -/
theorem resetAtAnyTime : Obligations.ResetAtAnyTime :=
  ⟨fun _ _ hp => step_reset hp, fun _ _ _ _ _ hport hp => step_port_resetDuring hport hp,
    fun col row _ => execRdpix_notReady (by simp [State.reset]) col row⟩

/-! ## No raster before a frame (R83) -/

theorem runCommand_pending {w : Word} {s t : State} (ht : runCommand w s = .next t) : t.pending = s.pending := by
  obtain ⟨u, resp, e, hrun, -, hpending⟩ := runCommand_responds w s
  cases hrun.symm.trans ht
  exact hpending

/-- After a reset only the events that are still pending can bring a frame. -/
theorem noFrameYet_reset {events : List HostEvent}
    (h : ∀ w b, .command w b ∈ events → ¬(w = 0x40000000#32 ∧ b.length = 8192)) :
    NoFrameYet { State.reset with pending := events } :=
  ⟨.inl rfl, h⟩

/-- Of the events behind the first none is a DFRAME with a frame either. -/
theorem NoFrameYet.tail {s : State} (h : NoFrameYet s) {e : HostEvent} {rest : List HostEvent}
    (hp : s.pending = e :: rest) (w : Word) (b : List Byte) (hmem : .command w b ∈ rest) :
    ¬(w = 0x40000000#32 ∧ b.length = 8192) :=
  h.2 w b (hp ▸ List.mem_cons_of_mem e hmem)

/-- No pass is in progress, and none has finished. -/
theorem NoFrameYet.atPort_and_not_done {s : State} (h : NoFrameYet s) : AtPort s ∧ s.status ≠ .done := by
  obtain ⟨hidle | hsize, -⟩ := h
  · simp [AtPort, hidle]
  · simp [AtPort, hsize]

theorem NoFrameYet.rdpix_notReady {s : State} (h : NoFrameYet s) (col row : Nat) :
    exec (.rdpix col row) s = .next { s with response := some ⟨0, 4⟩ } :=
  execRdpix_notReady h.atPort_and_not_done.2 col row

/-- A command that is no DFRAME with a frame leaves STATE IDLE or SIZE_ERROR. -/
theorem runCommand_keeps_noRaster {w : Word} {s t : State} (hstatus : s.status = .idle ∨ s.status = .sizeError)
    (hw : ¬(w = 0x40000000#32 ∧ s.inbuf.length = 8192)) (ht : runCommand w s = .next t) :
    t.status = .idle ∨ t.status = .sizeError := by
  rw [runCommand_status ht]
  split
  · next hdframe =>
    rw [if_neg fun hl => hw ⟨hdframe, hl⟩]
    exact .inr rfl
  · exact hstatus

theorem step_keeps_noFrameYet {s t : State} (h : NoFrameYet s) (hstep : step s = .next t) : NoFrameYet t := by
  obtain ⟨rest, hp, rfl⟩ | ⟨hrun, -, -⟩ | ⟨-, -, rfl⟩ | ⟨-, w, b, n, rest, hp, rfl⟩ | ⟨-, w, b, rest, hp, hcmd⟩ :=
    step_cases hstep
  · exact noFrameYet_reset (h.tail hp)
  · exact absurd hrun h.atPort_and_not_done.1
  · exact h
  · exact noFrameYet_reset (h.tail hp)
  · have hw : ¬(w = 0x40000000#32 ∧ b.length = 8192) := h.2 w b (hp ▸ List.mem_cons_self)
    exact ⟨runCommand_keeps_noRaster (by exact h.1) hw hcmd, runCommand_pending hcmd ▸ h.tail hp⟩

/-- Settles O60, by the cases of the step; outside DONE RDPIX answers NOT_READY. -/
theorem notReadyIsKeptUntilAFrame : Obligations.NotReadyIsKeptUntilAFrame :=
  ⟨fun _ _ => step_keeps_noFrameYet, fun _ col row h => h.rdpix_notReady col row⟩

/-- A run of one step more that answers a next state: its first step answers one. -/
theorem exists_step_of_run_succ {n : Nat} {s t : State} (h : Host.Core.run core (n + 1) s = .next t) :
    ∃ u, step s = .next u ∧ Host.Core.run core n u = .next t := by
  simp only [Host.Core.run] at h
  split at h
  · next u hstep => exact ⟨u, hstep, h⟩
  · cases h
  · cases h

/-- What every step keeps, every run keeps. -/
theorem run_keeps {P : State → Prop} (hstep : ∀ s t, P s → step s = .next t → P t) {n : Nat} {s t : State} (h : P s)
    (hrun : Host.Core.run core n s = .next t) : P t := by
  induction n generalizing s with
  | zero =>
    cases hrun
    exact h
  | succ n ih =>
    obtain ⟨u, hfirst, hrest⟩ := exists_step_of_run_succ hrun
    exact ih (hstep s u h hfirst) hrest

/-- Settles O51, by the invariant of O60 along the run. -/
theorem noRasterBeforeAFrame : Obligations.NoRasterBeforeAFrame := by
  intro events n t hevents hrun col row
  have h : NoFrameYet t := run_keeps (fun _ _ => step_keeps_noFrameYet) (noFrameYet_reset hevents) hrun
  exact h.rdpix_notReady col row

/-! ## RDPIX after a frame (R85) -/

/-- Settles O52: the first step leaves DONE with the raster of the buffer, the second reads a pixel of it. -/
theorem readAfterFrameSeesClosedForm : Obligations.ReadAfterFrameSeesClosedForm := by
  intro s buffer rest col row hport hl hcol hrow hp
  have hframe := (step_port_command hport hp).trans (runCommand_dframe_frame hl)
  have hdecode : decode (encode (.rdpix col row)) = .instr (.rdpix col row) :=
    decodeOfEncode _ ((rdpix_wf_iff col row).2 (by omega))
  have hread := step_port_instr (step_atPort hport hframe) rfl hdecode
  rw [exec, execRdpix_pixel rfl ((inRaster_iff row col).2 ⟨hrow, hcol⟩)] at hread
  refine ⟨_, (run_succ 1 hframe).trans (run_succ 0 hread), rfl, ?_⟩
  dsimp only
  rw [rasterRead_rasterAfter_frame _ hrow hcol]

/-! ## The order of a pass (R84) -/

/-- Orders that keep each line's bytes from left to right leave the same raster: every cell gets the same writes. -/
theorem foldl_decodeByte_eq_of_keepsLines (m : Memory) {order order' : List Nat} (h : KeepsLines order)
    (h' : KeepsLines order') :
    order.foldl (fun r a => decodeByte m a r) rasterClear = order'.foldl (fun r a => decodeByte m a r) rasterClear := by
  rw [foldl_decodeByte_eq, foldl_decodeByte_eq]
  refine Raster.ext (foldl_apply_wf rasterClear_wf _) (foldl_apply_wf rasterClear_wf _) fun row col hin => ?_
  obtain ⟨hrow, hcol⟩ := (inRaster_iff row col).1 hin
  rw [rasterRead_foldl_apply rasterClear_wf _ hin, rasterRead_foldl_apply rasterClear_wf _ hin,
    writesTo_order m h hrow (by omega), writesTo_order m h' hrow (by omega)]

/-- Settles O53: the ascending order keeps the lines too. -/
theorem passOrderFreedom : Obligations.PassOrderFreedom := by
  intro m order hperm hlines
  have horder : KeepsLines order :=
    ⟨hperm.nodup_iff.2 List.nodup_range, fun a ha => hperm.mem_iff.2 (List.mem_range.2 ha), hlines⟩
  exact foldl_decodeByte_eq_of_keepsLines m horder keepsLines_range

/-! ## The commands that read no state (R87) -/

theorem exec_fwd_stateless (x y : Nat) :
    ∃ r, ∀ s, exec (.fwd x y) s = .next { s with response := some r } := by
  by_cases hdomain : x > 279 ∨ y > 191
  · exact ⟨_, fun s => execFwd_domain hdomain s⟩
  · exact ⟨_, fun s => execFwd_address (by omega) (by omega) s⟩

/-- A word with the OP of FWD, INV or EXPAND has one response, whatever the state. -/
theorem runCommand_stateless {w : Word} (hop : slice w 31 28 = 1 ∨ slice w 31 28 = 2 ∨ slice w 31 28 = 3) :
    ∃ r, ∀ s, runCommand w s = .next { s with response := some r } := by
  cases hd : decode w with
  | illegal why => exact ⟨_, runCommand_of_illegal hd⟩
  | instr i =>
    simp only [runCommand_of_instr hd]
    obtain ⟨rfl, -⟩ | ⟨rfl, -⟩ | ⟨rfl, -⟩ | ⟨-, hop', -⟩ | ⟨-, hop', -⟩ | ⟨-, hop', -⟩ := decode_cases hd
    · exact exec_fwd_stateless _ _
    · exact ⟨_, fun s => rfl⟩
    · exact ⟨_, exec_expand _⟩
    all_goals omega

/-- Settles O54: the one response of the word serves both states. -/
theorem pureCommandsIgnoreState : Obligations.PureCommandsIgnoreState := by
  intro w s t hop
  obtain ⟨r, hr⟩ := runCommand_stateless hop
  exact ⟨r, hr s, hr t⟩

end Sys2Proof.Machine
end
